-- ==== Sys2Proof/Word.lean ====
section
/-! DEFINITION. The machine's words (R7, 00_scope.md): bytes, the 9-bit program counter, register numbers. -/

namespace Sys2Proof

/-- A `Byte` of R7: an unsigned value 0 to 255. Registers (R21) and memory cells (R30) hold one. -/
abbrev Byte := BitVec 8

/-- PC's domain (R7, R25): 9 bits, 0 to 511. Bit 8 set means "past the end of memory". -/
abbrev PcWord := BitVec 9

/-- The number of a general register, 0 to 7 (R21). -/
abbrev Reg := Fin 8

end Sys2Proof
end

