-- ==== Sys2Proof/Syntax.lean ====
section
/-! DEFINITION. The 20 instructions of R74 (30_encoding.md), one constructor per row of spec/opcode_table.json.
An operand is its operand byte, as the step of R101 (40_dispatch.md) carries it: whether a register operand byte names
a register is checked when the instruction executes (R73, R105), so a byte of 8 or more is part of the syntax and is
refused by WellFormed. -/

namespace Sys2Proof

/-- An instruction. Operands stand in the order of the operand bytes, `opA` then `opB` (R81). -/
inductive Instr where
  | hlt
  | ldi (r v : Byte)
  | prn (r : Byte)
  | add (a b : Byte)
  | mul (a b : Byte)
  | mod (a b : Byte)
  | and (a b : Byte)
  | or (a b : Byte)
  | xor (a b : Byte)
  | not (a : Byte)
  | shl (a b : Byte)
  | shr (a b : Byte)
  | cmp (a b : Byte)
  | push (r : Byte)
  | pop (r : Byte)
  | call (r : Byte)
  | ret
  | jmp (r : Byte)
  | jeq (r : Byte)
  | jne (r : Byte)
  deriving DecidableEq, Repr

/-- `regops` of R101: the operand bytes that the instruction's format (R72) declares to be register indices, in order.
LDI's second operand is an immediate. -/
def Instr.regOperands : Instr → List Byte
  | .hlt => []
  | .ldi r _ => [r]
  | .prn r => [r]
  | .add a b => [a, b]
  | .mul a b => [a, b]
  | .mod a b => [a, b]
  | .and a b => [a, b]
  | .or a b => [a, b]
  | .xor a b => [a, b]
  | .not a => [a]
  | .shl a b => [a, b]
  | .shr a b => [a, b]
  | .cmp a b => [a, b]
  | .push r => [r]
  | .pop r => [r]
  | .call r => [r]
  | .ret => []
  | .jmp r => [r]
  | .jeq r => [r]
  | .jne r => [r]

end Sys2Proof
end

