-- ==== Sys2Proof/WellFormed.lean ====
section
/-! DEFINITION. What an assembler may write (R83, 30_encoding.md): every register operand byte is 0 to 7 (R73). An
immediate is any byte. A decoded instruction need not be well-formed; the machine then takes RegisterIndexFault (R105). -/

namespace Sys2Proof

/-- R73: the byte is the number of a register. -/
def isRegIndex (b : Byte) : Bool := b.toNat < 8

/-- R83: no register operand byte is above 7. -/
def Instr.wellFormed (i : Instr) : Bool := i.regOperands.all isRegIndex

end Sys2Proof
end

