-- ==== Sys2Proof/Decode.lean ====
section
/-! DEFINITION. The encoding of 30_encoding.md: the opcode map of R74, a decoder total on byte lists that rejects by
name, and the encoder written from the same numbers. -/

namespace Sys2Proof

/-! The opcode bytes of R74. The numbers are the spec's decision D5 (log 1, UNVERIFIED); each stands here once. -/

namespace Opcode

def hlt : Byte := 0x01
def ldi : Byte := 0x82
def prn : Byte := 0x47
def add : Byte := 0xA0
def mul : Byte := 0xA2
def mod : Byte := 0xA4
def and : Byte := 0xA8
def or : Byte := 0xAA
def xor : Byte := 0xAB
def not : Byte := 0x69
def shl : Byte := 0xAC
def shr : Byte := 0xAD
def cmp : Byte := 0xA7
def push : Byte := 0x45
def pop : Byte := 0x46
def call : Byte := 0x50
def ret : Byte := 0x11
def jmp : Byte := 0x54
def jeq : Byte := 0x55
def jne : Byte := 0x56

end Opcode

/-- `n = ir[7:6]` of R70: how many operand bytes the opcode byte announces. It is 3 for 0xC0 to 0xFF (R78). -/
def operandCount (ir : Byte) : Nat := (ir.extractLsb' 6 2).toNat

/-- What follows an opcode byte that has a handler: no operand byte (format Z of R72), one (R), or two (RR and RI), and
the instruction they make. -/
inductive Form where
  | bare (i : Instr)
  | one (mk : Byte → Instr)
  | two (mk : Byte → Byte → Instr)

/-- The "fixed mapping from opcode" of R104, the rows of R74. -/
def opcodeMap : List (Byte × Form) :=
  [ (Opcode.hlt, .bare .hlt),
    (Opcode.ldi, .two .ldi),
    (Opcode.prn, .one .prn),
    (Opcode.add, .two .add),
    (Opcode.mul, .two .mul),
    (Opcode.mod, .two .mod),
    (Opcode.and, .two .and),
    (Opcode.or, .two .or),
    (Opcode.xor, .two .xor),
    (Opcode.not, .one .not) ] ++
  [ (Opcode.shl, .two .shl),
    (Opcode.shr, .two .shr),
    (Opcode.cmp, .two .cmp),
    (Opcode.push, .one .push),
    (Opcode.pop, .one .pop),
    (Opcode.call, .one .call),
    (Opcode.ret, .bare .ret),
    (Opcode.jmp, .one .jmp),
    (Opcode.jeq, .one .jeq),
    (Opcode.jne, .one .jne) ]

/-- The handler's form for an opcode byte, by comparing the whole byte (R74); `none` for the 236 unknown opcodes (R77). -/
def lookupOpcode (ir : Byte) : Option Form := opcodeMap.lookup ir

/-- Why bytes are not an instruction. -/
inductive DecodeError where
  /-- There is no byte at all. -/
  | noOpcode
  /-- The byte has no handler: an unknown opcode (R77), which the step skips. -/
  | unknownOpcode (ir : Byte)
  /-- The bytes end before the operand byte number `k` (1 or 2) that the opcode declares (R70). -/
  | missingOperand (ir : Byte) (k : Nat)
  deriving DecidableEq, Repr

/-- The decoder of R84: the instruction at the head of a byte list, lowest address first, and the bytes after it. -/
def decode : List Byte → Except DecodeError (Instr × List Byte)
  | [] => .error .noOpcode
  | ir :: rest =>
    match lookupOpcode ir with
    | none => .error (.unknownOpcode ir)
    | some (.bare i) => .ok (i, rest)
    | some (.one mk) =>
      match rest with
      | [] => .error (.missingOperand ir 1)
      | a :: rest => .ok (mk a, rest)
    | some (.two mk) =>
      match rest with
      | [] => .error (.missingOperand ir 1)
      | [_] => .error (.missingOperand ir 2)
      | a :: b :: rest => .ok (mk a b, rest)

/-- The bytes of an instruction, lowest address first (R72, R74). -/
def encode : Instr → List Byte
  | .hlt => [Opcode.hlt]
  | .ldi r v => [Opcode.ldi, r, v]
  | .prn r => [Opcode.prn, r]
  | .add a b => [Opcode.add, a, b]
  | .mul a b => [Opcode.mul, a, b]
  | .mod a b => [Opcode.mod, a, b]
  | .and a b => [Opcode.and, a, b]
  | .or a b => [Opcode.or, a, b]
  | .xor a b => [Opcode.xor, a, b]
  | .not a => [Opcode.not, a]
  | .shl a b => [Opcode.shl, a, b]
  | .shr a b => [Opcode.shr, a, b]
  | .cmp a b => [Opcode.cmp, a, b]
  | .push r => [Opcode.push, r]
  | .pop r => [Opcode.pop, r]
  | .call r => [Opcode.call, r]
  | .ret => [Opcode.ret]
  | .jmp r => [Opcode.jmp, r]
  | .jeq r => [Opcode.jeq, r]
  | .jne r => [Opcode.jne, r]

/-- The three bytes, lowest address first, of an instruction given as a number whose bit 0 is the least significant bit
of the first byte; bits from `nbits` up are 0. The longest instruction has three bytes (R80). -/
def tableWordBytes (nbits w : Nat) : List Byte :=
  let v := w % 2 ^ nbits
  [BitVec.ofNat 8 v, BitVec.ofNat 8 (v / 2 ^ 8), BitVec.ofNat 8 (v / 2 ^ 16)]

/-- The instruction the decoder reads from a table word; `none` where it rejects the bytes. -/
def decodeTableWord (nbits w : Nat) : Option Instr :=
  match decode (tableWordBytes nbits w) with
  | .ok (i, _) => some i
  | .error _ => none

end Sys2Proof
end

