-- ==== Sys2Proof/Config.lean ====
section
/-! DEFINITION. The parameters of R5 (00_scope.md) that the spec's source itself states. The parameters that the
spec decides without a source (SP_RESET, LINK_REG) stand in Machine/Params.lean and the opcode numbers in Decode.lean,
so that a repair can mend them. The four policies of R5 are what the definitions do: FETCH_POLICY = lazy
(Machine/Fetch.lean), OOR_POLICY = fault (`memRead`, `memWrite`), REGIDX_POLICY = fault (`regOperand`),
TOP3_POLICY = skip 4 (`operandCount`). No constant is left free: R11 says that no rule draws a free value. -/

namespace Sys2Proof.Config

/-- MEM_SIZE of R5: the number of byte cells; valid addresses are 0 to 255 (R50). -/
def memSize : Nat := 256

/-- RESET_PC of R5: PC after reset (R33, R221). -/
def resetPc : PcWord := 0

end Sys2Proof.Config
end

