-- ==== Sys2Proof/Machine/Params.lean ====
section
/-! DEFINITION. The parameters of R5 (00_scope.md) that name registers and the stack pointer's reset value. They stand
under Machine/ because a test against the source's repository could show one of them wrong (spec D6, D7, D8). -/

namespace Sys2Proof.Machine

/-- SP_INDEX of R5: the register used as stack pointer, "the last" (R22). -/
abbrev spReg : Reg := 7

/-- LINK_REG of R5: the register into which CALL saves the return address (R23). UNVERIFIED, log 3 (the spec's D7). -/
abbrev linkReg : Reg := 6

/-- SP_RESET of R5 (R33). UNVERIFIED, log 2 (the spec's D6). -/
def spReset : Byte := 0xF4

/-- The reset value of `x[0]` to `x[6]` (R33). UNVERIFIED, log 4 (the spec's D8). -/
def regReset : Byte := 0

/-- The registers after reset (R33, R220): `SP_RESET` in the stack pointer, `regReset` in the others. -/
def resetRegs : Vector Byte 8 := (Vector.replicate 8 regReset).set spReg spReset

/-- What a cell that nothing has written holds: memory is "zero-initialized" (R30, R33). -/
def blankByte : Byte := 0

end Sys2Proof.Machine
end

