-- ==== Sys2Proof/Machine/State.lean ====
section
/-! DEFINITION. The architectural state of 10_state.md: R20's list and OUT (R31), nothing else. -/

namespace Sys2Proof.Machine

/-- The condition bits of R27: E equal, L less-than, G greater-than. -/
structure Flags where
  e : Bool
  l : Bool
  g : Bool
  deriving DecidableEq, Repr

/-- The runtime faults of R190 (60_exceptions.md), each with the `info` it records. -/
inductive RuntimeFault where
  /-- R191: an address formed from PC, or CALL's return address, is above 255; `addr` is that address. -/
  | memoryFault (addr : Nat)
  /-- R192: an operand byte that the format declares a register index is 8 or more; `operand` is that byte. -/
  | registerIndexFault (operand : Byte)
  /-- R193: listed so that the type is closed over everything the source names. Nothing raises it (R143). -/
  | unsupportedAluOp
  deriving DecidableEq, Repr

/-- STATUS of R29. `halted` and `faulted` are left only by reset (R197). -/
inductive Status where
  | running
  | halted
  | faulted (f : RuntimeFault)
  deriving DecidableEq, Repr

/-- An output event of R31. -/
inductive Event where
  /-- Emitted by PRN with the register's value (R121). -/
  | print (v : Byte)
  /-- Emitted by MOD with a zero divisor (R133). -/
  | invalidDivisor
  deriving DecidableEq, Repr

/-- The 256 cells of R30 as (address, byte) pairs, addresses strictly rising, no pair with `blankByte`: a cell that is
not listed holds `blankByte`. -/
abbrev Memory := List Host.Cell

/-- The state of R20 and R31. -/
structure State where
  /-- `x[0]` to `x[7]` (R21). -/
  regs : Vector Byte 8
  /-- PC (R25). -/
  pc : PcWord
  /-- FL (R27). -/
  flags : Flags
  /-- STATUS (R29). -/
  status : Status
  /-- M (R30). -/
  mem : Memory
  /-- OUT (R31), oldest event first. -/
  out : List Event
  deriving DecidableEq, Repr

/-- Why there is no step. Both are raised by `step` alone, never by an instruction, and mean R100's "the engine has no
step": no state element changes until reset (log 12). Safe: no behaviour is added. -/
inductive Fault where
  /-- A step is asked for while STATUS is HALTED. -/
  | halted
  /-- A step is asked for while STATUS is FAULTED; `f` is the runtime fault that stopped the run. -/
  | faulted (f : RuntimeFault)
  deriving DecidableEq, Repr

/-- Refusals: an instruction without a meaning. None is left, so nothing raises one. -/
inductive Refusal where
  /-- Raised by an arm of `exec` whose instruction has no meaning yet (no arm has it). Safe. -/
  | notModelled (mnemonic : String)
  deriving DecidableEq, Repr

/-- The state after reset (R33, R220) before the loader writes an image: memory holds zeros, PC is 0, STATUS is RUNNING,
OUT is empty; the registers are `resetRegs` and the flags false (the spec's D6 and D8, log 2 and log 4). -/
def State.reset : State where
  regs := resetRegs
  pc := Config.resetPc
  flags := ⟨false, false, false⟩
  status := .running
  mem := []
  out := []

end Sys2Proof.Machine
end

