-- ==== Sys2Proof/Machine/Ops.lean ====
section
/-! DEFINITION. The primitives of R8 (00_scope.md), written once: registers, memory, `emit`, `raise`, the PC advance. A
handler is a value of `Handler`: the state its statements lead to, or the fault that one of them raises. -/

namespace Sys2Proof.Machine

/-- The outcome of a step or of one instruction. -/
abbrev Result := Host.Outcome State Fault Refusal

/-- What the statements of a rule come to: a state, or the runtime fault that abandons the step (R8, R195). -/
abbrev Handler := Except RuntimeFault State

/-! Registers (R21): `x[i]` and `x[i] <- v` of R8. -/

def State.reg (s : State) (r : Reg) : Byte := s.regs[r]

def State.setReg (s : State) (r : Reg) (v : Byte) : State := { s with regs := s.regs.set r v }

/-! Memory as plain data (R30, R50 to R52). -/

/-- The byte in the cell `a`: the listed one, else `blankByte`. -/
def Memory.read : Memory → Nat → Byte
  | [], _ => blankByte
  | (b, w) :: m, a => if b = a then w else Memory.read m a

/-- The memory without an entry for `a`. -/
def Memory.erase (m : Memory) (a : Nat) : Memory := m.filter (fun c => c.1 != a)

/-- `(a, v)` before the first entry whose address is above `a`. -/
def Memory.insert : Memory → Nat → Byte → Memory
  | [], a, v => [(a, v)]
  | (b, w) :: m, a, v => if a < b then (a, v) :: (b, w) :: m else (b, w) :: Memory.insert m a v

/-- `M[a] <- v` (R52). Writing what an unlisted cell holds removes the entry. -/
def Memory.write (m : Memory) (a : Nat) (v : Byte) : Memory :=
  if v = blankByte then m.erase a else (m.erase a).insert a v

/-- The canonical form: addresses strictly rising and below MEM_SIZE (R50), no entry with `blankByte`. -/
def Memory.wf (m : Memory) : Bool :=
  decide (m.Pairwise (fun c d => c.1 < d.1)) && m.all (fun c => decide (c.1 < Config.memSize) && c.2 != blankByte)

/-- MemRead of R51: the byte, or MemoryFault for an address above 255. It changes nothing. -/
def memRead (s : State) (addr : Nat) : Except RuntimeFault Byte :=
  if addr < Config.memSize then .ok (s.mem.read addr) else .error (.memoryFault addr)

/-- MemWrite of R52: one cell changes, or MemoryFault for an address above 255. -/
def memWrite (s : State) (addr : Nat) (v : Byte) : Handler :=
  if addr < Config.memSize then .ok { s with mem := s.mem.write addr v } else .error (.memoryFault addr)

/-- MemRead at `addr`, `addr + 1`, … for `n` bytes, in this order (R60, R103): the lowest address above 255 faults. -/
def memReadBytes (s : State) (addr : Nat) : Nat → Except RuntimeFault (List Byte)
  | 0 => .ok []
  | n + 1 => do
    let b ← memRead s addr
    let bs ← memReadBytes s (addr + 1) n
    pure (b :: bs)

/-! Output, status, PC. -/

/-- `emit ev` of R8: the event is appended to OUT. -/
def State.emit (s : State) (ev : Event) : State := { s with out := s.out ++ [ev] }

/-- `STATUS <- HALTED`. -/
def State.halt (s : State) : State := { s with status := .halted }

/-- `zext_9` of R8: a Byte loaded into PC keeps its number. -/
def zext9 (b : Byte) : PcWord := b.setWidth 9

/-- `PC <- zext_9(b)` (R177): a target is a Byte. -/
def State.jump (s : State) (b : Byte) : State := { s with pc := zext9 b }

/-- `PC <- PC + 1 + ir[7:6]` (R106, and R107 for an unknown opcode). PC does not wrap from 255 to 0 (R25): it has 9 bits.
Beyond 511, which no step reaches, the 9 bits wrap (log 14). -/
def State.advance (s : State) (ir : Byte) : State := { s with pc := s.pc + BitVec.ofNat 9 (1 + operandCount ir) }

/-! Taking a fault, the one exception entry of this hardware. -/

/-- Fault entry of R195: every register, flag, memory cell and PC keeps its value, nothing is emitted, STATUS becomes
FAULTED. There is no return from it (R197). -/
def raise (f : RuntimeFault) (s : State) : State := { s with status := .faulted f }

/-- The end of a handler begun in `s`: its state, or fault entry on `s` itself, the step being abandoned (R195). -/
def conclude (s : State) : Handler → Result
  | .ok t => .next t
  | .error f => .next (raise f s)

/-- The cause code of R190 that a host reads in FAULTED(cause, info). -/
def RuntimeFault.code : RuntimeFault → Nat
  | .memoryFault _ => 1
  | .registerIndexFault _ => 2
  | .unsupportedAluOp => 3

/-- The `info` of R190. -/
def RuntimeFault.info : RuntimeFault → Option Nat
  | .memoryFault addr => some addr
  | .registerIndexFault operand => some operand.toNat
  | .unsupportedAluOp => none

/-! The stack (R160): SP is `x[7]`, arithmetic on it is mod 256. -/

/-- The two statements of PUSH (R161): SP is decremented, then the register is read and written to M[SP]. -/
def State.push (s : State) (r : Reg) : Handler :=
  let s₁ := s.setReg spReg (s.reg spReg - 1)
  memWrite s₁ (s₁.reg spReg).toNat (s₁.reg r)

/-- SP <- (SP + 1) mod 256, the second statement of POP and RET (R162, R172). -/
def State.popSp (s : State) : State := s.setReg spReg (s.reg spReg + 1)

end Sys2Proof.Machine
end

