-- ==== Sys2Proof/Machine/Operands.lean ====
section
/-! DEFINITION. Operand forms (R73, 30_encoding.md): a register operand is a whole byte that must be 0 to 7; an immediate
is a whole byte used as it is. There is no other form. -/

namespace Sys2Proof.Machine

/-- Operand validation of R105: the register that an operand byte names, or RegisterIndexFault with that byte. No bit of
the byte is ignored or masked. -/
def regOperand (b : Byte) : Except RuntimeFault Reg :=
  if h : b.toNat < 8 then .ok ⟨b.toNat, h⟩ else .error (.registerIndexFault b)

/-- An immediate operand (LDI): neither extended, scaled nor shifted. -/
def immOperand (b : Byte) : Byte := b

/-- Format R of R72 followed by a handler: one register operand. -/
def withReg (a : Byte) (s : State) (handler : Reg → Handler) : Result :=
  conclude s (do
    let r ← regOperand a
    handler r)

/-- Format RR of R72 followed by a handler: `opA` is validated before `opB` (R105). -/
def withRegs (a b : Byte) (s : State) (handler : Reg → Reg → Handler) : Result :=
  conclude s (do
    let ra ← regOperand a
    let rb ← regOperand b
    handler ra rb)

end Sys2Proof.Machine
end

