-- ==== Sys2Proof/Machine/Fetch.lean ====
section
/-! DEFINITION. Stages 1 to 3 of the step of R101 (40_dispatch.md): opcode fetch, decode, lazy operand fetch; and the
placing of an instruction's bytes where the next fetch reads. -/

namespace Sys2Proof.Machine

/-- What stages 1 to 3 of R101 come to when nothing faults. -/
inductive Fetched where
  /-- The opcode byte has a handler and its operand bytes are fetched. -/
  | instr (i : Instr)
  /-- An unknown opcode (R107): no operand byte is fetched. -/
  | unknown (ir : Byte)
  deriving DecidableEq, Repr

/-- Fetch of R102 and R103: the opcode byte at PC; operand bytes at PC + 1 and PC + 2 only as far as a known opcode
declares them (the spec's D4). -/
def fetch (s : State) : Except RuntimeFault Fetched := do
  let ir ← memRead s s.pc.toNat
  match lookupOpcode ir with
  | none => pure (.unknown ir)
  | some (.bare i) => pure (.instr i)
  | some (.one mk) =>
    let opA ← memRead s (s.pc.toNat + 1)
    pure (.instr (mk opA))
  | some (.two mk) =>
    let opA ← memRead s (s.pc.toNat + 1)
    let opB ← memRead s (s.pc.toNat + 2)
    pure (.instr (mk opA opB))

/-- Bytes written to ascending cells from `a`; none is written past the last cell. -/
def Memory.load (m : Memory) (a : Nat) : List Byte → Memory
  | [] => m
  | b :: bs => if a < Config.memSize then Memory.load (m.write a b) (a + 1) bs else m

/-- `bs` stored where the next fetch reads, in an engine that will step: at PC if three bytes fit there, else at
`Config.resetPc`, to which PC is then set (log 13). -/
def placeInstruction (s : State) (bs : List Byte) : State :=
  let pc := if s.pc.toNat + 3 ≤ Config.memSize then s.pc else Config.resetPc
  { s with status := .running, pc := pc, mem := s.mem.load pc.toNat bs }

end Sys2Proof.Machine
end

