-- ==== Sys2Proof/Machine/Boot.lean ====
section
/-! DEFINITION. Reset and the loader's contract (70_reset_and_hazards.md R220, R222, R226; 20_memory.md R66). -/

namespace Sys2Proof.Machine

/-- The images a loader hands to the core (R222): 1 to 256 bytes. -/
def imageFits (image : List Byte) : Bool := 1 ≤ image.length && image.length ≤ Config.memSize

/-- The start of a run with chosen registers and flags: "a pure deterministic function of (initial Memory, initial
Registers)" (R33's last paragraph). `none`: the core is never started (R205), log 16. -/
def State.launch (image : List Byte) (regs : Vector Byte 8) (flags : Flags) : Option State :=
  if imageFits image then
    some { State.reset with mem := State.reset.mem.load 0 image, regs := regs, flags := flags }
  else none

/-- Reset with an image (R220): image byte `k` goes to M[k], every other element to its reset value. Nothing of an
earlier run is kept (R35). -/
def State.boot (image : List Byte) : Option State :=
  State.launch image State.reset.regs State.reset.flags

end Sys2Proof.Machine
end

