-- ==== Sys2Proof/Machine/Flags.lean ====
section
/-! DEFINITION. The only flag computation of this hardware: CMP's (R140, 42_alu.md). -/

namespace Sys2Proof.Machine

/-- R140: subtract second from first as mathematical integers; E, L, G say zero, negative, positive. -/
def compareFlags (a b : Byte) : Flags :=
  let d : Int := (a.toNat : Int) - (b.toNat : Int)
  { e := decide (d = 0), l := decide (d < 0), g := decide (d > 0) }

/-- The display form `0b00000LGE` of R28 (the spec's D20, log 15). No instruction uses it. -/
def Flags.display (f : Flags) : Byte :=
  BitVec.ofNat 8 (4 * f.l.toNat + 2 * f.g.toNat + f.e.toNat)

end Sys2Proof.Machine
end

