-- ==== Sys2Proof/Machine/Alu.lean ====
section
/-! DEFINITION. The ALU instructions (42_alu.md). Values are unsigned bytes, every result is taken mod 256 (R142). -/

namespace Sys2Proof.Machine

/-! The ALU's functions (R142). -/

def aluAdd (a b : Byte) : Byte := a + b
def aluMul (a b : Byte) : Byte := a * b
/-- Used only for a divisor that is not 0 (R133). -/
def aluMod (a b : Byte) : Byte := a % b
def aluAnd (a b : Byte) : Byte := a &&& b
def aluOr (a b : Byte) : Byte := a ||| b
def aluXor (a b : Byte) : Byte := a ^^^ b
def aluNot (a : Byte) : Byte := a ^^^ 0xFF
/-- The amount is the whole byte, not reduced mod 8 (R138). -/
def aluShl (a b : Byte) : Byte := a <<< b.toNat
/-- Logical, the amount is the whole byte (R139). -/
def aluShr (a b : Byte) : Byte := a >>> b.toNat

/-- A two-operand operation of R130: both registers are read, the result goes to the first, PC advances by `ir`'s length. -/
def aluBinary (ir : Byte) (f : Byte → Byte → Byte) (a b : Byte) (s : State) : Result :=
  withRegs a b s fun ra rb => pure ((s.setReg ra (f (s.reg ra) (s.reg rb))).advance ir)

/-- ADD a, b (R131). -/
def execAdd (a b : Byte) (s : State) : Result := aluBinary Opcode.add aluAdd a b s

/-- MUL a, b (R132). -/
def execMul (a b : Byte) (s : State) : Result := aluBinary Opcode.mul aluMul a b s

/-- MOD a, b (R133): a zero divisor emits InvalidDivisor and halts; it is no fault (R194). -/
def execMod (a b : Byte) (s : State) : Result :=
  withRegs a b s fun ra rb =>
    if s.reg rb = 0 then
      pure ((s.emit .invalidDivisor).halt.advance Opcode.mod)
    else
      pure ((s.setReg ra (aluMod (s.reg ra) (s.reg rb))).advance Opcode.mod)

/-- AND a, b (R134). -/
def execAnd (a b : Byte) (s : State) : Result := aluBinary Opcode.and aluAnd a b s

/-- OR a, b (R135). -/
def execOr (a b : Byte) (s : State) : Result := aluBinary Opcode.or aluOr a b s

/-- XOR a, b (R136). -/
def execXor (a b : Byte) (s : State) : Result := aluBinary Opcode.xor aluXor a b s

/-- NOT a (R137): one operand byte. -/
def execNot (a : Byte) (s : State) : Result :=
  withReg a s fun ra => pure ((s.setReg ra (aluNot (s.reg ra))).advance Opcode.not)

/-- SHL a, b (R138). -/
def execShl (a b : Byte) (s : State) : Result := aluBinary Opcode.shl aluShl a b s

/-- SHR a, b (R139). -/
def execShr (a b : Byte) (s : State) : Result := aluBinary Opcode.shr aluShr a b s

/-- CMP a, b (R140): writes all three flags and no register. -/
def execCmp (a b : Byte) (s : State) : Result :=
  withRegs a b s fun ra rb =>
    pure ({ s with flags := compareFlags (s.reg ra) (s.reg rb) }.advance Opcode.cmp)

end Sys2Proof.Machine
end

