-- ==== Sys2Proof/Machine/Control.lean ====
section
/-! DEFINITION. The control-transfer set (44_control.md). Each handler sets PC itself; the advance of R106 is used only for
the not-taken path of JEQ and JNE (R170). -/

namespace Sys2Proof.Machine

/-- CALL r (R171): the return address is checked before any write (the spec's D12); the target is read last. -/
def execCall (r : Byte) (s : State) : Result :=
  withReg r s fun r =>
    let ra := s.pc.toNat + 2
    if ra < Config.memSize then do
      let s₁ := s.setReg linkReg (BitVec.ofNat 8 ra)
      let s₂ ← s₁.push linkReg
      pure (s₂.jump (s₂.reg r))
    else .error (.memoryFault ra)

/-- RET (R172): the link register is neither read nor written. -/
def execRet (s : State) : Result :=
  conclude s (do
    let target ← memRead s (s.reg spReg).toNat
    pure (s.jump target).popSp)

/-- JMP r (R173). -/
def execJmp (r : Byte) (s : State) : Result :=
  withReg r s fun r => pure (s.jump (s.reg r))

/-- A conditional jump: to `x[r]`, or past the instruction `ir` (R174, R175). -/
def jumpIf (taken : Bool) (ir : Byte) (r : Reg) (s : State) : State :=
  if taken then s.jump (s.reg r) else s.advance ir

/-- JEQ r (R174). -/
def execJeq (r : Byte) (s : State) : Result :=
  withReg r s fun r => pure (jumpIf s.flags.e Opcode.jeq r s)

/-- JNE r (R175): it tests E alone. -/
def execJne (r : Byte) (s : State) : Result :=
  withReg r s fun r => pure (jumpIf (!s.flags.e) Opcode.jne r s)

end Sys2Proof.Machine
end

