-- ==== Sys2Proof/Machine/LoadPrint.lean ====
section
/-! DEFINITION. LDI and PRN (41_load_print.md). -/

namespace Sys2Proof.Machine

/-- LDI r, v (R120). -/
def execLdi (r v : Byte) (s : State) : Result :=
  withReg r s fun r => pure ((s.setReg r (immOperand v)).advance Opcode.ldi)

/-- PRN r (R121). -/
def execPrn (r : Byte) (s : State) : Result :=
  withReg r s fun r => pure ((s.emit (.print (s.reg r))).advance Opcode.prn)

end Sys2Proof.Machine
end

