-- ==== Sys2Proof/Machine/Stack.lean ====
section
/-! DEFINITION. PUSH and POP (43_stack.md). The statements run in the order of the rule (R9, the spec's D23). -/

namespace Sys2Proof.Machine

/-- PUSH r (R161): the source register is read after the decrement. -/
def execPush (r : Byte) (s : State) : Result :=
  withReg r s fun r => do
    let s₁ ← s.push r
    pure (s₁.advance Opcode.push)

/-- POP r (R162): the register is loaded, then SP is incremented; POP R7 increments the loaded value. -/
def execPop (r : Byte) (s : State) : Result :=
  withReg r s fun r => do
    let v ← memRead s (s.reg spReg).toNat
    pure ((s.setReg r v).popSp.advance Opcode.pop)

end Sys2Proof.Machine
end

