-- ==== Sys2Proof/Machine/System.lean ====
section
/-! DEFINITION. HLT, the only system instruction (R111), and the skip of an unknown opcode (40_dispatch.md). -/

namespace Sys2Proof.Machine

/-- HLT (R109): STATUS <- HALTED, then the PC advance of R106 (the spec's D14). -/
def execHlt (s : State) : Result :=
  conclude s (pure (s.halt.advance Opcode.hlt))

/-- An opcode byte without a handler (R77, R107): only PC moves, by `1 + ir[7:6]`. -/
def skipUnknown (ir : Byte) (s : State) : Result :=
  .next (s.advance ir)

end Sys2Proof.Machine
end

