-- ==== Sys2Proof/Machine/Step.lean ====
section
/-! DEFINITION. One step of the engine (R101, 40_dispatch.md). -/

namespace Sys2Proof.Machine

/-- The step of R101. With STATUS other than RUNNING there is no step (R100). -/
def step (s : State) : Host.Outcome State Fault Refusal :=
  match s.status with
  | .halted => .fault .halted
  | .faulted f => .fault (.faulted f)
  | .running =>
    match fetch s with
    | .error f => .next (raise f s)
    | .ok (.unknown ir) => skipUnknown ir s
    | .ok (.instr i) => exec i s

/-- `s` with a table word stored where `step` fetches next, so that the next step runs it (log 13). -/
def State.withFetchWord (s : State) (nbits w : Nat) : State :=
  placeInstruction s (tableWordBytes nbits w)

end Sys2Proof.Machine
end

