-- ==== Sys2Proof/Machine/Run.lean ====
section
/-! DEFINITION. Run control (R100, R203, R226, R227): the host lets the engine run to its end, under a bound because a run
may be infinite. -/

namespace Sys2Proof.Machine

/-- At most `n` steps, stopping where there is no step: the state then (R227). -/
def freeRun : Nat → State → State
  | 0, s => s
  | n + 1, s =>
    match step s with
    | .next t => freeRun n t
    | .fault _ => s
    | .refused _ => s

end Sys2Proof.Machine
end

