-- ==== Sys2Proof/Safety.lean ====
section
/-! DEFINITION. What counts as a safe run, in the terms claims use. -/

namespace Sys2Proof.Machine

/-- The run has ended successfully (R227). -/
def State.endedWell (s : State) : Prop := s.status = .halted

/-- The run has ended in failure (R227): "a faulted run is not a successful run" (R195). -/
def State.endedInFailure (s : State) : Prop := ∃ f, s.status = .faulted f

/-- The faults a run can show (R190): an address 256 to 259, an operand byte 8 to 255, never UnsupportedAluOp. -/
def RuntimeFault.legal : RuntimeFault → Prop
  | .memoryFault addr => 256 ≤ addr ∧ addr ≤ 259
  | .registerIndexFault operand => 8 ≤ operand.toNat
  | .unsupportedAluOp => False

/-- At most one of E, L, G is true: all are false at reset (R33), exactly one is true after a CMP (R27). -/
def Flags.exclusive (f : Flags) : Prop :=
  ¬(f.e = true ∧ f.l = true) ∧ ¬(f.e = true ∧ f.g = true) ∧ ¬(f.l = true ∧ f.g = true)

/-- The invariant of every run: memory in canonical form, PC at most 259 (R25), flags mutually exclusive (R27), a
recorded fault legal (R190). -/
structure State.Inv (s : State) : Prop where
  memory : s.mem.wf = true
  pc : s.pc.toNat ≤ 259
  flags : s.flags.exclusive
  fault : ∀ f, s.status = .faulted f → f.legal

/-- A safe run never faults: for every number of steps the status is not FAULTED (R195). -/
def State.safe (s : State) : Prop := ∀ n, ¬(freeRun n s).endedInFailure

end Sys2Proof.Machine
end

