-- ==== Sys2Proof/Certificates/Slice0/Obligations.lean ====
section
/-! DEFINITION. The statements for the provers. Each follows numbered rules of spec/, named in its docstring; the words the
statements share (frames, instruction rules, the pseudocode machine) come first. Numbers such as 0xA0, register 6 and
0xF4 are those of the rules; where they rest on a decision of the spec the log entry is named. -/

namespace Sys2Proof.Machine.Claim

/-! ### What an instruction leaves unchanged -/

/-- Every register outside `written` keeps its value. -/
def keepsRegs (written : List Reg) (s t : State) : Prop := ∀ r, r ∉ written → t.reg r = s.reg r

/-- Every byte of memory keeps its value. -/
def keepsMem (s t : State) : Prop := ∀ a, t.mem.read a = s.mem.read a

/-- Every byte of memory but the one at `addr` keeps its value. -/
def keepsMemBut (addr : Nat) (s t : State) : Prop := ∀ a, a ≠ addr → t.mem.read a = s.mem.read a

/-- The frame of an instruction that writes the registers `written` and PC and nothing else. -/
def onlyRegs (written : List Reg) (s t : State) : Prop :=
  keepsRegs written s t ∧ t.flags = s.flags ∧ t.status = s.status ∧ t.out = s.out ∧ keepsMem s t

/-- PC moved forward by `n`, as numbers; an executing instruction stands at an address 0 to 255 (R25). -/
def pcPlus (n : Nat) (s t : State) : Prop := s.pc.toNat ≤ 255 → t.pc.toNat = s.pc.toNat + n

/-- Fault entry (R195): STATUS alone changes. -/
def faultedBy (f : RuntimeFault) (s : State) : State := { s with status := .faulted f }

/-! ### The shape of an instruction rule -/

/-- A running engine whose next opcode byte, at an address 0 to 255, is `ir`. -/
def atOpcode (s : State) (ir : Byte) : Prop :=
  s.status = .running ∧ s.pc.toNat ≤ 255 ∧ s.mem.read s.pc.toNat = ir

/-- The operand byte is the number of the register. -/
def names (b : Byte) (r : Reg) : Prop := b.toNat = r.val

/-- The operand byte at PC + `k`. -/
def operandAt (s : State) (k : Nat) : Byte := s.mem.read (s.pc.toNat + k)

/-- The whole of a format Z rule: encoding, effect in every state, and the step that runs it. -/
def ruleZ (opcode : Byte) (i : Instr) (effect : State → State → Prop) : Prop :=
  encode i = [opcode] ∧
  (∀ s, ∃ t, exec i s = .next t ∧ effect s t) ∧
  (∀ s, atOpcode s opcode → step s = exec i s)

/-- Encoding, register-index fault and operand-fetch fault of a format R rule (one register operand). -/
def shapeR (opcode : Byte) (mk : Byte → Instr) : Prop :=
  (∀ a, encode (mk a) = [opcode, a]) ∧
  (∀ a s, 7 < a.toNat → exec (mk a) s = .next (faultedBy (.registerIndexFault a) s)) ∧
  (∀ s, atOpcode s opcode →
    (s.pc.toNat = 255 → step s = .next (faultedBy (.memoryFault 256) s)) ∧
    (s.pc.toNat ≤ 254 → step s = exec (mk (operandAt s 1)) s))

/-- The whole of a format R rule: `shapeR` and the effect in every state, for every register. -/
def ruleR (opcode : Byte) (mk : Byte → Instr) (effect : Reg → State → State → Prop) : Prop :=
  shapeR opcode mk ∧
  (∀ a r s, names a r → ∃ t, exec (mk a) s = .next t ∧ effect r s t)

/-- The whole of a format RR rule: encoding, effect in every state for every two registers, the register-index fault
(`opA` first), the operand-fetch faults at addresses 255 and 254, and the step that runs it. -/
def ruleRR (opcode : Byte) (mk : Byte → Byte → Instr) (effect : Reg → Reg → State → State → Prop) : Prop :=
  (∀ a b, encode (mk a b) = [opcode, a, b]) ∧
  (∀ a b ra rb s, names a ra → names b rb → ∃ t, exec (mk a b) s = .next t ∧ effect ra rb s t) ∧
  (∀ a b s, 7 < a.toNat → exec (mk a b) s = .next (faultedBy (.registerIndexFault a) s)) ∧
  (∀ a b s, a.toNat ≤ 7 → 7 < b.toNat → exec (mk a b) s = .next (faultedBy (.registerIndexFault b) s)) ∧
  (∀ s, atOpcode s opcode →
    (s.pc.toNat = 255 → step s = .next (faultedBy (.memoryFault 256) s)) ∧
    (s.pc.toNat = 254 → step s = .next (faultedBy (.memoryFault 256) s)) ∧
    (s.pc.toNat ≤ 253 → step s = exec (mk (operandAt s 1) (operandAt s 2)) s))

/-- The effect of an ALU instruction that writes `x[a]` (R130): the value `f` gives for the old values, PC + 3, and
nothing else. -/
def aluEffect (f : Nat → Nat → Nat) (a b : Reg) (s t : State) : Prop :=
  (t.reg a).toNat = f (s.reg a).toNat (s.reg b).toNat ∧ pcPlus 3 s t ∧ onlyRegs [a] s t

/-- The same for an operation that acts bit by bit. -/
def bitwiseEffect (f : Bool → Bool → Bool) (a b : Reg) (s t : State) : Prop :=
  (∀ k, k < 8 → (t.reg a).getLsbD k = f ((s.reg a).getLsbD k) ((s.reg b).getLsbD k)) ∧
  pcPlus 3 s t ∧ onlyRegs [a] s t

/-- (SP - 1) mod 256, the address a push stores to (R161). -/
def pushAddr (s : State) : Nat := ((s.reg 7).toNat + 255) % 256

/-! ### The opcode map as R74 prints it -/

/-- DEFINED of R101, in the order of R74's rows. -/
def definedOpcodes : List Nat :=
  [0x01, 0x82, 0x47, 0xA0, 0xA2, 0xA4, 0xA8, 0xAA, 0xAB, 0x69, 0xAC, 0xAD, 0xA7, 0x45, 0x46, 0x50, 0x11, 0x54, 0x55, 0x56]

/-- CT of R101. -/
def controlOpcodes : List Nat := [0x50, 0x11, 0x54, 0x55, 0x56]

/-- The rows the source routes through the ALU (42_alu.md). -/
def isAlu : Instr → Bool
  | .add _ _ | .mul _ _ | .mod _ _ | .and _ _ | .or _ _ | .xor _ _ | .not _ | .shl _ _ | .shr _ _ | .cmp _ _ => true
  | .hlt | .ldi _ _ | .prn _ | .push _ | .pop _ | .call _ | .ret | .jmp _ | .jeq _ | .jne _ => false

/-- The control-transfer set of R76. -/
def isControl : Instr → Bool
  | .call _ | .ret | .jmp _ | .jeq _ | .jne _ => true
  | .hlt | .ldi _ _ | .prn _ | .add _ _ | .mul _ _ | .mod _ _ | .and _ _ | .or _ _ | .xor _ _ | .not _ | .shl _ _
  | .shr _ _ | .cmp _ _ | .push _ | .pop _ => false

/-- Format R of R72, by number. -/
def formatR : List Nat := [0x47, 0x69, 0x45, 0x46, 0x50, 0x54, 0x55, 0x56]

/-- Format RR of R72, by number. -/
def formatRR : List Nat := [0xA0, 0xA2, 0xA4, 0xA8, 0xAA, 0xAB, 0xAC, 0xAD, 0xA7]

/-- `regops(ir)` of R101 by number: the operand bytes that are register indices (format RI is LDI's). -/
def regops (ir opA opB : Nat) : List Nat :=
  if ir ∈ formatR then [opA] else if ir ∈ formatRR then [opA, opB] else if ir = 0x82 then [opA] else []

/-! ### R24's table -/

/-- The registers an instruction reads (R24), its operand bytes naming registers. -/
def readsReg (i : Instr) (s : State) (r : Reg) : Prop :=
  match i with
  | .hlt | .ldi _ _ => False
  | .prn a | .not a | .jmp a => names a r
  | .add a b | .mul a b | .and a b | .or a b | .xor a b | .shl a b | .shr a b | .mod a b | .cmp a b => names a r ∨ names b r
  | .push a | .call a => names a r ∨ r = 7
  | .pop _ | .ret => r = 7
  | .jeq a => names a r ∧ s.flags.e = true
  | .jne a => names a r ∧ s.flags.e = false

/-- The registers an instruction writes (R24). -/
def writesReg (i : Instr) (s : State) (r : Reg) : Prop :=
  match i with
  | .hlt | .prn _ | .cmp _ _ | .jmp _ | .jeq _ | .jne _ => False
  | .ldi a _ | .not a => names a r
  | .add a _ | .mul a _ | .and a _ | .or a _ | .xor a _ | .shl a _ | .shr a _ => names a r
  | .mod a b => names a r ∧ ∀ q, names b q → s.reg q ≠ 0
  | .push _ | .ret => r = 7
  | .pop a => names a r ∨ r = 7
  | .call _ => r = 6 ∨ r = 7

/-! ### The machine of R101, transcribed

R8's primitives over mathematical integers: registers and memory are functions of numbers, every truncation is written out,
and the step is R101's text with the handlers of 40_dispatch.md to 44_control.md. It shares nothing with the model but the
types of faults, status and events. -/

/-- R20's elements as mathematical objects. -/
structure Pseudo where
  x : Nat → Nat
  pc : Nat
  e : Bool
  l : Bool
  g : Bool
  status : Status
  m : Nat → Nat
  out : List Event

/-- A function changed at one point. -/
def put (f : Nat → Nat) (i v : Nat) : Nat → Nat := fun j => if j = i then v else f j

/-- R138 to R140 and R131 to R137 by opcode: the value written to `x[opA]`, for the ALU opcodes that write a register
and always run to it (MOD and CMP stand in `pseudoHandler`). -/
def pseudoAlu (ir a b : Nat) : Nat :=
  match ir with
  | 0xA0 => (a + b) % 256
  | 0xA2 => (a * b) % 256
  | 0xA8 => a &&& b
  | 0xAA => a ||| b
  | 0xAB => a ^^^ b
  | 0xAC => (a * 2 ^ b) % 256
  | _ => a / 2 ^ b

/-- Stage 5 and 6 of R101 for a defined opcode with validated operands. -/
def pseudoHandler (ir opA opB : Nat) (p : Pseudo) : Pseudo :=
  match ir with
  | 0x01 => { p with status := .halted, pc := p.pc + 1 }
  | 0x82 => { p with x := put p.x opA opB, pc := p.pc + 3 }
  | 0x47 => { p with out := p.out ++ [.print (BitVec.ofNat 8 (p.x opA))], pc := p.pc + 2 }
  | 0xA4 =>
    if p.x opB = 0 then { p with out := p.out ++ [.invalidDivisor], status := .halted, pc := p.pc + 3 }
    else { p with x := put p.x opA (p.x opA % p.x opB), pc := p.pc + 3 }
  | 0x69 => { p with x := put p.x opA (255 - p.x opA), pc := p.pc + 2 }
  | 0xA7 =>
    let d : Int := (p.x opA : Int) - (p.x opB : Int)
    { p with e := decide (d = 0), l := decide (d < 0), g := decide (d > 0), pc := p.pc + 3 }
  | 0x45 =>
    let x := put p.x 7 ((p.x 7 + 255) % 256)
    { p with x := x, m := put p.m (x 7) (x opA), pc := p.pc + 2 }
  | 0x46 =>
    let x := put p.x opA (p.m (p.x 7))
    { p with x := put x 7 ((x 7 + 1) % 256), pc := p.pc + 2 }
  | 0x50 =>
    if p.pc + 2 > 255 then { p with status := .faulted (.memoryFault (p.pc + 2)) }
    else
      let x := put p.x 6 (p.pc + 2)
      let x := put x 7 ((x 7 + 255) % 256)
      { p with x := x, m := put p.m (x 7) (x 6), pc := x opA }
  | 0x11 => { p with pc := p.m (p.x 7), x := put p.x 7 ((p.x 7 + 1) % 256) }
  | 0x54 => { p with pc := p.x opA }
  | 0x55 => { p with pc := if p.e then p.x opA else p.pc + 2 }
  | 0x56 => { p with pc := if p.e then p.pc + 2 else p.x opA }
  | _ => { p with x := put p.x opA (pseudoAlu ir (p.x opA) (p.x opB)), pc := p.pc + 3 }

/-- The step of R101, for STATUS = RUNNING. -/
def pseudoStep (p : Pseudo) : Pseudo :=
  if p.pc > 255 then { p with status := .faulted (.memoryFault p.pc) }
  else
    let ir := p.m p.pc
    let n := ir / 64
    if ir ∉ definedOpcodes then { p with pc := p.pc + 1 + n }
    else if n ≥ 1 ∧ p.pc + 1 > 255 then { p with status := .faulted (.memoryFault (p.pc + 1)) }
    else if n = 2 ∧ p.pc + 2 > 255 then { p with status := .faulted (.memoryFault (p.pc + 2)) }
    else
      let opA := p.m (p.pc + 1)
      let opB := p.m (p.pc + 2)
      match (regops ir opA opB).find? (fun r => r > 7) with
      | some r => { p with status := .faulted (.registerIndexFault (BitVec.ofNat 8 r)) }
      | none => pseudoHandler ir opA opB p

/-- The model's state read as the machine of R101. -/
def pseudoOf (s : State) : Pseudo where
  x := fun i => if h : i < 8 then (s.reg ⟨i, h⟩).toNat else 0
  pc := s.pc.toNat
  e := s.flags.e
  l := s.flags.l
  g := s.flags.g
  status := s.status
  m := fun a => (s.mem.read a).toNat
  out := s.out

end Sys2Proof.Machine.Claim

open Sys2Proof Sys2Proof.Machine Sys2Proof.Machine.Claim

/-! ## Encoding -/

/-- R84, R70: the decoder reads `i` and leaves `rest` exactly when the bytes are `i`'s encoding followed by `rest`, for
every instruction, well-formed or not, with every operand byte. -/
def Obligations.DecodeExactlyInvertsEncode : Prop :=
  ∀ bs i rest, decode bs = .ok (i, rest) ↔ bs = encode i ++ rest

/-- R74: the bytes of all 20 rows, the three properties every row has, and that the whole byte selects. The numbers are
the spec's decision D5 (log 1). -/
def Obligations.OpcodeMapAsTabulated : Prop :=
  (∀ a b : Byte,
    encode .hlt = [0x01] ∧ encode (.ldi a b) = [0x82, a, b] ∧ encode (.prn a) = [0x47, a] ∧
    encode (.add a b) = [0xA0, a, b] ∧ encode (.mul a b) = [0xA2, a, b] ∧ encode (.mod a b) = [0xA4, a, b] ∧
    encode (.and a b) = [0xA8, a, b] ∧ encode (.or a b) = [0xAA, a, b] ∧ encode (.xor a b) = [0xAB, a, b] ∧
    encode (.not a) = [0x69, a] ∧ encode (.shl a b) = [0xAC, a, b] ∧ encode (.shr a b) = [0xAD, a, b] ∧
    encode (.cmp a b) = [0xA7, a, b] ∧ encode (.push a) = [0x45, a] ∧ encode (.pop a) = [0x46, a] ∧
    encode (.call a) = [0x50, a] ∧ encode .ret = [0x11] ∧ encode (.jmp a) = [0x54, a] ∧
    encode (.jeq a) = [0x55, a] ∧ encode (.jne a) = [0x56, a]) ∧
  (∀ i opcode operands, encode i = opcode :: operands →
    opcode.toNat / 64 = operands.length ∧
    opcode.getLsbD 5 = isAlu i ∧
    opcode.getLsbD 4 = isControl i) ∧
  (∀ ir rest, decode (ir :: rest) = .error (.unknownOpcode ir) ↔ ir.toNat ∉ definedOpcodes)

/-- R120, R133, R161, R171, R172, R109: the words of the rules' own examples decode to the instructions they stand for. -/
def Obligations.ExampleWordsDecode : Prop :=
  decode [0x82, 0x00, 0x08] = .ok (.ldi 0 8, []) ∧
  decode [0xA4, 0x00, 0x01] = .ok (.mod 0 1, []) ∧
  decode [0x45, 0x00] = .ok (.push 0, []) ∧
  decode [0x50, 0x01] = .ok (.call 1, []) ∧
  decode [0x11] = .ok (.ret, []) ∧
  decode [0x01] = .ok (.hlt, [])

/-! ## The step -/

/-- R101: where the bytes from PC on, all at addresses 0 to 255, decode to an instruction, the step of a running engine
is `exec` of it at the same state; nothing is added around `exec`. -/
def Obligations.StepRunsDecodedInstruction : Prop :=
  ∀ s i rest n, s.status = .running → s.pc.toNat + n ≤ 256 →
    decode ((List.range n).map (operandAt s)) = .ok (i, rest) → step s = exec i s

/-- R100: a step exists exactly while STATUS is RUNNING; in HALTED and FAULTED nothing changes however often a step is
asked for; and a run may be infinite (a JMP to itself at address 0). -/
def Obligations.StepsExactlyWhileRunning : Prop :=
  (∀ s, (∃ t, step s = .next t) ↔ s.status = .running) ∧
  (∀ s n, s.status ≠ .running → freeRun n s = s) ∧
  (∃ s, State.boot [0x54, 0x00] = some s ∧ ∀ n, (freeRun n s).status = .running)

/-- R102: a fetch with PC at 256 or more is MemoryFault(PC); PC keeps its value, so it is not wrapped to 0. -/
def Obligations.FetchPastTopFaults : Prop :=
  ∀ s, s.status = .running → 256 ≤ s.pc.toNat → step s = .next (faultedBy (.memoryFault s.pc.toNat) s)

/-- R103: operand bytes are fetched only as far as a defined opcode declares them; the fault names the lowest address
out of range; an unknown opcode fetches none, so it does not fault even at address 255. -/
def Obligations.OperandFetchIsLazy : Prop :=
  ∀ s ir, atOpcode s ir →
    (ir.toNat ∈ definedOpcodes →
      (1 ≤ ir.toNat / 64 → 255 < s.pc.toNat + 1 → step s = .next (faultedBy (.memoryFault (s.pc.toNat + 1)) s)) ∧
      (ir.toNat / 64 = 2 → s.pc.toNat + 1 ≤ 255 → 255 < s.pc.toNat + 2 →
        step s = .next (faultedBy (.memoryFault (s.pc.toNat + 2)) s)) ∧
      (s.pc.toNat + ir.toNat / 64 ≤ 255 →
        ∃ i, encode i = (List.range (1 + ir.toNat / 64)).map (operandAt s) ∧ step s = exec i s)) ∧
    (ir.toNat ∉ definedOpcodes → ∃ t, step s = .next t ∧ t.status = .running)

/-- R77, R78, R107: each of the 236 other opcode bytes moves PC by 1 + ir[7:6] (4 for 0xC0 to 0xFF, none of which is
defined) and does nothing else. The advance by 4 is the spec's decision D10 (log 7). -/
def Obligations.UnknownOpcodeIsSkipped : Prop :=
  definedOpcodes.length = 20 ∧ definedOpcodes.Nodup ∧
  (∀ ir ∈ definedOpcodes, ir < 0xC0) ∧
  (∀ s ir, atOpcode s ir → ir.toNat ∉ definedOpcodes →
    ∃ t, step s = .next t ∧ t = { s with pc := t.pc } ∧ t.pc.toNat = s.pc.toNat + 1 + ir.toNat / 64 ∧
      (0xC0 ≤ ir.toNat → t.pc.toNat = s.pc.toNat + 4))

/-- R105, R192: the first register operand byte of 8 or more, `opA` before `opB`, is RegisterIndexFault with that byte,
in every state and before any effect; a well-formed instruction never faults so. The fault is the spec's D9 (log 7). -/
def Obligations.RegisterIndexValidated : Prop :=
  ∀ i s,
    (∀ b, i.regOperands.find? (fun r => decide (7 < r.toNat)) = some b →
      exec i s = .next (faultedBy (.registerIndexFault b) s)) ∧
    (i.wellFormed = true → ∀ t b, exec i s = .next t → t.status = .faulted (.registerIndexFault b) → t.status = s.status)

/-- R26: PC after a step that does not fault, by the opcode byte at PC; a step that faults does not write it. In (c) the
target is read after CALL's writes. -/
def Obligations.PcIsWrittenInTheseWays : Prop :=
  State.reset.pc = 0 ∧
  (∀ s ir t, atOpcode s ir → step s = .next t → (∀ f, t.status ≠ .faulted f) →
    (ir.toNat ∉ controlOpcodes → t.pc.toNat = s.pc.toNat + 1 + ir.toNat / 64) ∧
    (ir = 0x50 ∨ ir = 0x54 ∨ (ir = 0x55 ∧ s.flags.e = true) ∨ (ir = 0x56 ∧ s.flags.e = false) →
      ∃ r, names (operandAt s 1) r ∧ t.pc.toNat = (t.reg r).toNat) ∧
    (ir = 0x11 → t.pc.toNat = (s.mem.read (s.reg 7).toNat).toNat) ∧
    ((ir = 0x55 ∧ s.flags.e = false) ∨ (ir = 0x56 ∧ s.flags.e = true) → t.pc.toNat = s.pc.toNat + 2)) ∧
  (∀ s t f, step s = .next t → t.status = .faulted f → t.pc = s.pc)

/-- R63: a byte written to a cell is what the next fetch of that cell decodes: with `v` stored at PC, the engine runs the
instruction whose bytes are `v` and the bytes after it. -/
def Obligations.FetchSeesStores : Prop :=
  ∀ s t v i rest n, s.status = .running → memWrite s s.pc.toNat v = .ok t → s.pc.toNat + 1 + n ≤ 256 →
    decode (v :: (List.range n).map (fun k => operandAt s (k + 1))) = .ok (i, rest) → step t = exec i t

/-- R101 with every handler rule: a running engine always steps, and the state it reaches, read as mathematical objects, is
what the transcribed pseudocode gives. -/
def Obligations.StepMatchesPseudocode : Prop :=
  ∀ s, s.status = .running → ∃ t, step s = .next t ∧ pseudoOf t = pseudoStep (pseudoOf s)

/-! ## Faults and status -/

/-- R195: a step that ends in FAULTED has changed STATUS and nothing else, and the engine does not step again. -/
def Obligations.FaultEntryIsPreciseAndTerminal : Prop :=
  ∀ s t f, step s = .next t → t.status = .faulted f →
    t = faultedBy f s ∧ (∀ u, step t ≠ .next u) ∧ ∀ n, freeRun n t = t

/-- R190: a step faults under the conditions of the table's rows and under no other, with the info the row gives;
UnsupportedAluOp is raised by nothing. The premise is R25's bound on PC, part of the invariant `State.Inv`. -/
def Obligations.FaultListIsComplete : Prop :=
  (∀ addr, (RuntimeFault.memoryFault addr).code = 1) ∧
  (∀ v, (RuntimeFault.registerIndexFault v).code = 2) ∧
  RuntimeFault.unsupportedAluOp.code = 3 ∧
  (∀ s t f, s.pc.toNat ≤ 259 → step s = .next t → t.status = .faulted f →
    (∃ addr, f = .memoryFault addr ∧ f.info = some addr ∧ 256 ≤ addr ∧ addr ≤ 259 ∧
      ((255 < s.pc.toNat ∧ addr = s.pc.toNat) ∨
       (∃ ir, atOpcode s ir ∧ ir.toNat ∈ definedOpcodes ∧ 1 ≤ ir.toNat / 64 ∧ 254 ≤ s.pc.toNat ∧
         s.pc.toNat < addr ∧ addr ≤ s.pc.toNat + ir.toNat / 64) ∨
       (atOpcode s 0x50 ∧ 255 < s.pc.toNat + 2 ∧ addr = s.pc.toNat + 2))) ∨
    (∃ v, f = .registerIndexFault v ∧ f.info = some v.toNat ∧ 8 ≤ v.toNat ∧
      ∃ ir, atOpcode s ir ∧ v.toNat ∈ regops ir.toNat (operandAt s 1).toNat (operandAt s 2).toNat)) ∧
  (∀ s, s.status = .running →
    (255 < s.pc.toNat ∨
     (∃ ir, atOpcode s ir ∧ ir.toNat ∈ definedOpcodes ∧ 255 < s.pc.toNat + ir.toNat / 64) ∨
     (∃ ir v, atOpcode s ir ∧ v ∈ regops ir.toNat (operandAt s 1).toNat (operandAt s 2).toNat ∧ 7 < v) ∨
     (atOpcode s 0x50 ∧ 255 < s.pc.toNat + 2)) →
    ∃ f, step s = .next (faultedBy f s))

/-- R196 (a rule the spec derives from R101): of the conditions that apply to one instruction exactly the first is
reported; if none applies the step faults not at all. -/
def Obligations.FaultPriority : Prop :=
  ∀ s, s.status = .running →
    let pc := s.pc.toNat
    let ir := (s.mem.read pc).toNat
    let n := ir / 64
    let ops := regops ir (operandAt s 1).toNat (operandAt s 2).toNat
    if 255 < pc then step s = .next (faultedBy (.memoryFault pc) s)
    else if ir ∈ definedOpcodes ∧ 1 ≤ n ∧ 255 < pc + 1 then step s = .next (faultedBy (.memoryFault (pc + 1)) s)
    else if ir ∈ definedOpcodes ∧ 2 ≤ n ∧ 255 < pc + 2 then step s = .next (faultedBy (.memoryFault (pc + 2)) s)
    else if ∃ v, ops.head? = some v ∧ 7 < v then
      step s = .next (faultedBy (.registerIndexFault (operandAt s 1)) s)
    else if ∃ v, ops.tail.head? = some v ∧ 7 < v then
      step s = .next (faultedBy (.registerIndexFault (operandAt s 2)) s)
    else if ir = 0x50 ∧ 255 < pc + 2 then step s = .next (faultedBy (.memoryFault (pc + 2)) s)
    else ∃ t, step s = .next t ∧ (t.status = .running ∨ t.status = .halted)

/-- R29: reset gives RUNNING; a step reaches HALTED exactly by HLT or by MOD with a zero divisor, FAULTED exactly by fault
entry; HALTED and FAULTED have no step; no instruction reads STATUS. -/
def Obligations.StatusTransitions : Prop :=
  State.reset.status = .running ∧
  (∀ s t, step s = .next t →
    (t.status = .halted ↔
      (s.pc.toNat ≤ 255 ∧ s.mem.read s.pc.toNat = 0x01) ∨
      (s.pc.toNat ≤ 253 ∧ s.mem.read s.pc.toNat = 0xA4 ∧ ∃ ra rb, names (operandAt s 1) ra ∧ names (operandAt s 2) rb ∧ s.reg rb = 0)) ∧
    (∀ f, t.status = .faulted f ↔ t = faultedBy f s)) ∧
  (∀ s, s.status ≠ .running → ∀ t, step s ≠ .next t) ∧
  (∀ i s st t, exec i s = .next t → ∃ t', exec i { s with status := st } = .next t' ∧
    { t' with status := .running } = { t with status := .running })

/-! ## Whole-machine rules -/

/-- R27: only CMP writes flags, and after it exactly one of the three is true. -/
def Obligations.OnlyCompareWritesFlags : Prop :=
  (∀ s t, step s = .next t → t.flags ≠ s.flags → atOpcode s 0xA7) ∧
  (∀ a b ra rb s, names a ra → names b rb → ∃ t, exec (.cmp a b) s = .next t ∧
    ((t.flags.e = true ∧ t.flags.l = false ∧ t.flags.g = false) ∨
     (t.flags.e = false ∧ t.flags.l = true ∧ t.flags.g = false) ∨
     (t.flags.e = false ∧ t.flags.l = false ∧ t.flags.g = true)))

/-- R28: no step reads L or G: with other values of the two, everything the step does is the same, and the two are kept
unless it is a CMP, which overwrites both. -/
def Obligations.LessAndGreaterAreUnread : Prop :=
  ∀ s t l g, step s = .next t → ∃ t', step { s with flags := { s.flags with l := l, g := g } } = .next t' ∧
    { t' with flags := t.flags } = t ∧ t'.flags.e = t.flags.e ∧
    (t'.flags = t.flags ∨ (t.flags = s.flags ∧ t'.flags = { s.flags with l := l, g := g }))

/-- R24: an instruction changes no register outside its row's "writes"; a register outside its row's "reads" has no
influence: with another value in it, everything else comes out the same, and so does that register if the row writes
it. An unknown opcode reads and writes none. -/
def Obligations.RegistersReadAndWritten : Prop :=
  (∀ i s t r, exec i s = .next t → ¬writesReg i s r → t.reg r = s.reg r) ∧
  (∀ i s t r v, exec i s = .next t → i.wellFormed = true → ¬readsReg i s r →
    (∃ t', exec i (s.setReg r v) = .next t' ∧
      (t' = t.setReg r v ∨ (writesReg i s r ∧ t' = t)))) ∧
  (∀ s ir t r v, atOpcode s ir → ir.toNat ∉ definedOpcodes → step s = .next t →
    t.regs = s.regs ∧ step (s.setReg r v) = .next (t.setReg r v))

/-- R65 (its writes): a step changes no byte of memory but for PUSH and CALL, and these only the byte at (SP - 1) mod
256. -/
def Obligations.OnlyPushAndCallWriteMemory : Prop :=
  ∀ s t a, step s = .next t → t.mem.read a ≠ s.mem.read a → (atOpcode s 0x45 ∨ atOpcode s 0x50) ∧ a = pushAddr s

/-- R31: OUT is empty at reset and only grows; PRN appends Print of its register, MOD with a zero divisor appends
InvalidDivisor, no other step appends anything; and no step reads OUT. -/
def Obligations.OutputGrowsAndIsUnread : Prop :=
  State.reset.out = [] ∧
  ∀ s t, step s = .next t → ∃ evs, t.out = s.out ++ evs ∧
    (evs = [] ∨
     (atOpcode s 0x47 ∧ ∃ r, names (operandAt s 1) r ∧ evs = [.print (s.reg r)]) ∨
     (atOpcode s 0xA4 ∧ t.status = .halted ∧ evs = [.invalidDivisor])) ∧
    ∀ o, step { s with out := o } = .next { t with out := o ++ evs }

/-- R25, R27, R30, R190: every step keeps the invariant: memory canonical, PC at most 259, at most one flag true, a
recorded fault of R190's list. -/
def Obligations.StepKeepsInvariant : Prop :=
  ∀ s t, s.Inv → step s = .next t → t.Inv

/-- R33: the reset state meets the invariant. -/
def Obligations.ResetMeetsInvariant : Prop := State.reset.Inv

/-- R33, R222: so does the start state of every run, whatever the image and whatever the initial registers. -/
def Obligations.LaunchMeetsInvariant : Prop :=
  ∀ image regs flags s, flags.exclusive → State.launch image regs flags = some s → s.Inv

/-! ## Reset and memory -/

/-- R221, R30: after reset PC is 0, memory is zero, and the first opcode fetched is M[0], which is the image's first byte. -/
def Obligations.ResetEntryIsZero : Prop :=
  State.reset.pc = 0 ∧ State.reset.status = .running ∧ (∀ a, State.reset.mem.read a = 0) ∧
  ∀ image s, State.boot image = some s → s.pc = 0 ∧ s.status = .running ∧
    (∀ ir, image.head? = some ir → s.mem.read s.pc.toNat = ir) ∧
    (image.head? = some 0x01 → ∃ t, step s = .next t ∧ t.status = .halted)

/-- R33: the table of reset values, and what stands in memory when the loader has placed an image. The values of the
registers and flags are the spec's decisions D6 and D8, which no source confirms (log 2, log 4). -/
def Obligations.ResetValuesAsTabulated : Prop :=
  State.reset.pc = 0 ∧ State.reset.status = .running ∧
  (∀ r : Reg, r ≠ 7 → State.reset.reg r = 0) ∧ State.reset.reg 7 = 0xF4 ∧
  State.reset.flags = ⟨false, false, false⟩ ∧ State.reset.out = [] ∧ (∀ a, State.reset.mem.read a = 0) ∧
  ∀ image s, State.boot image = some s →
    s = { State.reset with mem := s.mem } ∧
    (∀ a v, image[a]? = some v → s.mem.read a = v) ∧ (∀ a, image[a]? = none → s.mem.read a = 0)

/-- R220, R222: a run starts exactly from an image of 1 to 256 bytes; byte `k` is in M[k], the other cells are 0, and every
other element is as at reset. -/
def Obligations.BootPlacesImage : Prop :=
  ∀ image, ((State.boot image).isSome = true ↔ 1 ≤ image.length ∧ image.length ≤ 256) ∧
    ∀ s, State.boot image = some s →
      (∀ k, k < image.length → some (s.mem.read k) = image[k]?) ∧
      (∀ a, image.length ≤ a → s.mem.read a = 0) ∧
      s = { State.reset with mem := s.mem }

/-- R51, R52: a read gives the cell's byte, a write changes that cell and nothing else and is idempotent; above address 255
both are MemoryFault with the address. -/
def Obligations.MemoryPrimitives : Prop :=
  ∀ s addr,
    (addr ≤ 255 → memRead s addr = .ok (s.mem.read addr)) ∧
    (255 < addr → memRead s addr = .error (.memoryFault addr)) ∧
    (∀ v, addr ≤ 255 → ∃ t, memWrite s addr v = .ok t ∧ t = { s with mem := t.mem } ∧ memRead t addr = .ok v ∧
      keepsMemBut addr s t ∧ memWrite t addr v = .ok t) ∧
    (∀ v, 255 < addr → memWrite s addr v = .error (.memoryFault addr))

/-- R30 (the model's own form of it): memories in canonical form that hold the same bytes are the same data. -/
def Obligations.CanonicalMemoriesAreEqual : Prop :=
  ∀ m m' : Memory, m.wf = true → m'.wf = true → (∀ a, m.read a = m'.read a) → m = m'

/-- R226, R227: letting the engine run to its end gives what single steps give; once it has ended, more steps allowed change
nothing. -/
def Obligations.FreeRunIsRepeatedStep : Prop :=
  (∀ n s t, Host.Core.run core n s = .next t → freeRun n s = t) ∧
  (∀ n k s, (freeRun n s).status ≠ .running → freeRun (n + k) s = freeRun n s) ∧
  (∀ n s, (freeRun n s).status = .running → Host.Core.run core n s = .next (freeRun n s))

/-! ## The instructions, rule by rule -/

/-- R109: HLT. PC past the HLT is the spec's D14 (log 9); at address 255 it is 256. The halted engine has no step. -/
def Obligations.HltRule : Prop :=
  ruleZ 0x01 .hlt (fun s t =>
    t.status = .halted ∧ pcPlus 1 s t ∧ keepsRegs [] s t ∧ t.flags = s.flags ∧ t.out = s.out ∧ keepsMem s t ∧
    ∀ u, step t ≠ .next u)

/-- R120: LDI r, v for every register and every byte. -/
def Obligations.LdiRule : Prop :=
  (∀ a v, encode (.ldi a v) = [0x82, a, v]) ∧
  (∀ a v r s, names a r → ∃ t, exec (.ldi a v) s = .next t ∧ t.reg r = v ∧ pcPlus 3 s t ∧ onlyRegs [r] s t) ∧
  (∀ a v s, 7 < a.toNat → exec (.ldi a v) s = .next (faultedBy (.registerIndexFault a) s)) ∧
  (∀ s, atOpcode s 0x82 →
    (s.pc.toNat = 255 → step s = .next (faultedBy (.memoryFault 256) s)) ∧
    (s.pc.toNat = 254 → step s = .next (faultedBy (.memoryFault 256) s)) ∧
    (s.pc.toNat ≤ 253 → step s = exec (.ldi (operandAt s 1) (operandAt s 2)) s))

/-- R121: PRN r. -/
def Obligations.PrnRule : Prop :=
  ruleR 0x47 .prn (fun r s t =>
    t.out = s.out ++ [.print (s.reg r)] ∧ pcPlus 2 s t ∧ keepsRegs [] s t ∧ t.flags = s.flags ∧ t.status = s.status ∧
    keepsMem s t)

/-- R131, R132: ADD and MUL, reduced mod 256 (the spec's D1, log 5). -/
def Obligations.AddMulRules : Prop :=
  ruleRR 0xA0 .add (aluEffect (fun a b => (a + b) % 256)) ∧
  ruleRR 0xA2 .mul (aluEffect (fun a b => (a * b) % 256))

/-- R133: MOD. A zero divisor emits InvalidDivisor and halts, register and flags unchanged, PC + 3 (the spec's D14, log 9). -/
def Obligations.ModRule : Prop :=
  ruleRR 0xA4 .mod (fun a b s t =>
    (s.reg b = 0 →
      t.status = .halted ∧ t.out = s.out ++ [.invalidDivisor] ∧ pcPlus 3 s t ∧ keepsRegs [] s t ∧ t.flags = s.flags ∧
      keepsMem s t) ∧
    (s.reg b ≠ 0 → aluEffect (fun a b => a % b) a b s t ∧ (t.reg a).toNat < (s.reg b).toNat))

/-- R134, R135, R136: AND, OR, XOR, bit by bit. -/
def Obligations.AndOrXorRules : Prop :=
  ruleRR 0xA8 .and (bitwiseEffect (fun a b => a && b)) ∧
  ruleRR 0xAA .or (bitwiseEffect (fun a b => a || b)) ∧
  ruleRR 0xAB .xor (bitwiseEffect (fun a b => a ^^ b))

/-- R137: NOT, two bytes long, the 8-bit complement; twice restores the value. -/
def Obligations.NotRule : Prop :=
  ruleR 0x69 .not (fun r s t =>
    (t.reg r).toNat = 255 - (s.reg r).toNat ∧ t.reg r = s.reg r ^^^ 0xFF ∧ pcPlus 2 s t ∧ onlyRegs [r] s t ∧
    ∀ a u, names a r → exec (.not a) t = .next u → u.reg r = s.reg r)

/-- R138, R139: SHL and SHR by the register's whole value; every amount from 8 up gives 0; SHR is logical (the spec's D18,
log 5). -/
def Obligations.ShiftRules : Prop :=
  ruleRR 0xAC .shl (fun a b s t =>
    aluEffect (fun v n => (v * 2 ^ n) % 256) a b s t ∧ (8 ≤ (s.reg b).toNat → t.reg a = 0)) ∧
  ruleRR 0xAD .shr (fun a b s t =>
    aluEffect (fun v n => v / 2 ^ n) a b s t ∧ (8 ≤ (s.reg b).toNat → t.reg a = 0))

/-- R140: CMP, the unsigned order of the two registers; no register is written. -/
def Obligations.CmpRule : Prop :=
  ruleRR 0xA7 .cmp (fun a b s t =>
    ((s.reg a).toNat = (s.reg b).toNat → t.flags = ⟨true, false, false⟩) ∧
    ((s.reg a).toNat < (s.reg b).toNat → t.flags = ⟨false, true, false⟩) ∧
    ((s.reg b).toNat < (s.reg a).toNat → t.flags = ⟨false, false, true⟩) ∧
    pcPlus 3 s t ∧ keepsRegs [] s t ∧ t.status = s.status ∧ t.out = s.out ∧ keepsMem s t)

/-- R161: PUSH for every register. SP wraps mod 256; the byte stored is the register's value after the decrement, so PUSH R7
stores the new SP. -/
def Obligations.PushRule : Prop :=
  ruleR 0x45 .push (fun r s t =>
    (t.reg 7).toNat = pushAddr s ∧
    t.mem.read (pushAddr s) = t.reg r ∧
    keepsMemBut (pushAddr s) s t ∧
    keepsRegs [7] s t ∧ t.flags = s.flags ∧ t.status = s.status ∧ t.out = s.out ∧ pcPlus 2 s t)

/-- R162: POP for every register. The register is loaded first, then `x[7]`, which is the loaded byte for POP R7, is
incremented mod 256. -/
def Obligations.PopRule : Prop :=
  ruleR 0x46 .pop (fun r s t =>
    (r ≠ 7 → t.reg r = s.mem.read (s.reg 7).toNat) ∧
    (t.reg 7).toNat = ((if r = 7 then s.mem.read (s.reg 7).toNat else s.reg 7).toNat + 1) % 256 ∧
    pcPlus 2 s t ∧ onlyRegs [r, 7] s t)

/-- R171: CALL for every register. The link register is R6 (the spec's D7, log 3). The target is the register's value after
the writes, so CALL R6 goes to the return address and CALL R7 to the new SP. A return address above 255 is MemoryFault
before any write (the spec's D12, log 8). -/
def Obligations.CallRule : Prop :=
  shapeR 0x50 .call ∧
  (∀ a r s, names a r → s.pc.toNat + 2 ≤ 255 → ∃ t, exec (.call a) s = .next t ∧
    (t.reg 6).toNat = s.pc.toNat + 2 ∧
    (t.reg 7).toNat = pushAddr s ∧
    t.mem.read (pushAddr s) = t.reg 6 ∧
    t.pc.toNat = (t.reg r).toNat ∧
    keepsMemBut (pushAddr s) s t ∧
    keepsRegs [6, 7] s t ∧ t.flags = s.flags ∧ t.status = s.status ∧ t.out = s.out) ∧
  (∀ a r s, names a r → 255 < s.pc.toNat + 2 →
    exec (.call a) s = .next (faultedBy (.memoryFault (s.pc.toNat + 2)) s))

/-- R172: RET, whatever the byte on the stack; the link register is not written. -/
def Obligations.RetRule : Prop :=
  ruleZ 0x11 .ret (fun s t =>
    t.pc.toNat = (s.mem.read (s.reg 7).toNat).toNat ∧ (t.reg 7).toNat = ((s.reg 7).toNat + 1) % 256 ∧
    onlyRegs [7] s t)

/-- R173: JMP to every target 0 to 255. -/
def Obligations.JmpRule : Prop :=
  ruleR 0x54 .jmp (fun r s t => t.pc.toNat = (s.reg r).toNat ∧ onlyRegs [] s t)

/-- R174, R175: JEQ and JNE, on E alone, taken and not taken; the flag is not cleared. -/
def Obligations.JeqJneRules : Prop :=
  ruleR 0x55 .jeq (fun r s t =>
    (s.flags.e = true → t.pc.toNat = (s.reg r).toNat) ∧ (s.flags.e = false → pcPlus 2 s t) ∧ onlyRegs [] s t) ∧
  ruleR 0x56 .jne (fun r s t =>
    (s.flags.e = false → t.pc.toNat = (s.reg r).toNat) ∧ (s.flags.e = true → pcPlus 2 s t) ∧ onlyRegs [] s t)

/-! ## The stack's promises -/

/-- R163: neither PUSH nor POP can fault on its data access, and PUSH then POP of the same register restores every
register, for R0 to R7 and every SP; memory differs at most in the byte pushed to. -/
def Obligations.PushThenPopRestores : Prop :=
  ∀ a r s, names a r → ∃ t u, exec (.push a) s = .next t ∧ exec (.pop a) t = .next u ∧
    (∀ q, u.reg q = s.reg q) ∧ keepsMemBut (pushAddr s) s u ∧
    u.flags = s.flags ∧ u.status = s.status ∧ u.out = s.out

/-- R172 (the source's property, read as 90_conflicts.md C7 says): after a CALL, a RET executed in any later state with the
same SP and the same byte on top of the stack resumes two bytes after the CALL's opcode, with SP as before the CALL. -/
def Obligations.CallThenReturnResumes : Prop :=
  ∀ a r s t u, names a r → s.pc.toNat ≤ 253 → exec (.call a) s = .next t →
    u.reg 7 = t.reg 7 → u.mem.read (t.reg 7).toNat = t.mem.read (t.reg 7).toNat →
    ∃ w, exec .ret u = .next w ∧ w.pc.toNat = s.pc.toNat + 2 ∧ w.reg 7 = s.reg 7
end

