-- ==== Sys2Proof/Laws/Decode.lean ====
section
/-! SUPPORT. The opcode map of R74, row by row and inverted. -/

namespace Sys2Proof

/-! ### Rows -/

@[simp] theorem lookup_hlt : lookupOpcode Opcode.hlt = some (.bare .hlt) := rfl
@[simp] theorem lookup_ldi : lookupOpcode Opcode.ldi = some (.two .ldi) := rfl
@[simp] theorem lookup_prn : lookupOpcode Opcode.prn = some (.one .prn) := rfl
@[simp] theorem lookup_add : lookupOpcode Opcode.add = some (.two .add) := rfl
@[simp] theorem lookup_mul : lookupOpcode Opcode.mul = some (.two .mul) := rfl
@[simp] theorem lookup_mod : lookupOpcode Opcode.mod = some (.two .mod) := rfl
@[simp] theorem lookup_and : lookupOpcode Opcode.and = some (.two .and) := rfl
@[simp] theorem lookup_or : lookupOpcode Opcode.or = some (.two .or) := rfl
@[simp] theorem lookup_xor : lookupOpcode Opcode.xor = some (.two .xor) := rfl
@[simp] theorem lookup_not : lookupOpcode Opcode.not = some (.one .not) := rfl
@[simp] theorem lookup_shl : lookupOpcode Opcode.shl = some (.two .shl) := rfl
@[simp] theorem lookup_shr : lookupOpcode Opcode.shr = some (.two .shr) := rfl
@[simp] theorem lookup_cmp : lookupOpcode Opcode.cmp = some (.two .cmp) := rfl
@[simp] theorem lookup_push : lookupOpcode Opcode.push = some (.one .push) := rfl
@[simp] theorem lookup_pop : lookupOpcode Opcode.pop = some (.one .pop) := rfl
@[simp] theorem lookup_call : lookupOpcode Opcode.call = some (.one .call) := rfl
@[simp] theorem lookup_ret : lookupOpcode Opcode.ret = some (.bare .ret) := rfl
@[simp] theorem lookup_jmp : lookupOpcode Opcode.jmp = some (.one .jmp) := rfl
@[simp] theorem lookup_jeq : lookupOpcode Opcode.jeq = some (.one .jeq) := rfl
@[simp] theorem lookup_jne : lookupOpcode Opcode.jne = some (.one .jne) := rfl

/-! ### Operand counts (R70) -/

/-- `ir[7:6]` is the byte divided by 64. -/
theorem operandCount_eq (ir : Byte) : operandCount ir = ir.toNat / 64 := by
  have h := ir.isLt
  simp only [operandCount, BitVec.extractLsb'_toNat, Nat.shiftRight_eq_div_pow]
  omega

theorem operandCount_lt (ir : Byte) : operandCount ir < 4 := by
  have h := ir.isLt
  rw [operandCount_eq]
  omega

/-- How many operand bytes a form takes. -/
def Form.arity : Form → Nat
  | .bare _ => 0
  | .one _ => 1
  | .two _ => 2

/-- The row an opcode byte selects is a row of the table. -/
theorem mem_of_lookup {ir : Byte} {f : Form} (h : lookupOpcode ir = some f) : (ir, f) ∈ opcodeMap := by
  obtain ⟨l₁, l₂, hl, -⟩ := List.lookup_eq_some_iff.mp h
  rw [hl]
  simp

/-- The number of operand bytes is what the opcode's top two bits say (R74: "bits 7:6 of the value equal the operand
count"). -/
theorem arity_of_lookup {ir : Byte} {f : Form} (h : lookupOpcode ir = some f) : f.arity = operandCount ir := by
  have rows : ∀ row ∈ opcodeMap, row.2.arity = operandCount row.1 := by decide
  exact rows _ (mem_of_lookup h)

/-- The opcode bytes of R74, in its order. -/
def knownOpcodes : List Byte := opcodeMap.map Prod.fst

/-- An opcode is unknown exactly when it is not in the table (R77). -/
theorem lookup_eq_none_iff (ir : Byte) : lookupOpcode ir = none ↔ ir ∉ knownOpcodes := by
  simp only [lookupOpcode, List.lookup_eq_none_iff, knownOpcodes, List.mem_map, not_exists, not_and]
  constructor
  · intro h p hp hir
    have := h p hp
    simp [hir] at this
  · intro h p hp
    have := h p hp
    simp only [bne_iff_ne, ne_eq]
    exact fun hir => this hir.symm

/-! ### The decoder by form -/

theorem decode_bare {ir : Byte} {i : Instr} (rest : List Byte) (h : lookupOpcode ir = some (.bare i)) :
    decode (ir :: rest) = .ok (i, rest) := by simp [decode, h]

theorem decode_one {ir : Byte} {mk : Byte → Instr} (a : Byte) (rest : List Byte) (h : lookupOpcode ir = some (.one mk)) :
    decode (ir :: a :: rest) = .ok (mk a, rest) := by simp [decode, h]

theorem decode_two {ir : Byte} {mk : Byte → Byte → Instr} (a b : Byte) (rest : List Byte)
    (h : lookupOpcode ir = some (.two mk)) : decode (ir :: a :: b :: rest) = .ok (mk a b, rest) := by simp [decode, h]

/-- What bytes that decode look like: an opcode byte of the table, its operand bytes, the rest. -/
theorem decode_ok_cases {bs : List Byte} {i : Instr} {rest : List Byte} (h : decode bs = .ok (i, rest)) :
    (∃ ir, lookupOpcode ir = some (.bare i) ∧ bs = ir :: rest) ∨
    (∃ ir mk a, lookupOpcode ir = some (.one mk) ∧ i = mk a ∧ bs = ir :: a :: rest) ∨
    (∃ ir mk a b, lookupOpcode ir = some (.two mk) ∧ i = mk a b ∧ bs = ir :: a :: b :: rest) := by
  cases bs with
  | nil => simp [decode] at h
  | cons ir bs =>
    rcases hl : lookupOpcode ir with _ | (j | mk | mk)
    · simp [decode, hl] at h
    · simp only [decode, hl, Except.ok.injEq, Prod.mk.injEq] at h
      obtain ⟨rfl, rfl⟩ := h
      exact .inl ⟨ir, hl, rfl⟩
    · rcases bs with _ | ⟨a, bs⟩
      · simp [decode, hl] at h
      · simp only [decode, hl, Except.ok.injEq, Prod.mk.injEq] at h
        obtain ⟨rfl, rfl⟩ := h
        exact .inr (.inl ⟨ir, mk, a, hl, rfl, rfl⟩)
    · rcases bs with _ | ⟨a, _ | ⟨b, bs⟩⟩
      · simp [decode, hl] at h
      · simp [decode, hl] at h
      · simp only [decode, hl, Except.ok.injEq, Prod.mk.injEq] at h
        obtain ⟨rfl, rfl⟩ := h
        exact .inr (.inr ⟨ir, mk, a, b, hl, rfl, rfl⟩)

/-! ### The encoder by form -/

/-- What the encoder must write for every instruction of a form whose opcode byte is `ir` (R72). -/
def Form.encodedWith (ir : Byte) : Form → Prop
  | .bare i => encode i = [ir]
  | .one mk => ∀ a, encode (mk a) = [ir, a]
  | .two mk => ∀ a b, encode (mk a b) = [ir, a, b]

/-- The encoder agrees with every row of the opcode map. -/
theorem rows_encoded : ∀ row ∈ opcodeMap, row.2.encodedWith row.1 := by
  simp [opcodeMap, Form.encodedWith, encode]

theorem encodedWith_of_lookup {ir : Byte} {f : Form} (h : lookupOpcode ir = some f) : f.encodedWith ir :=
  rows_encoded _ (mem_of_lookup h)

theorem encode_bare {ir : Byte} {i : Instr} (h : lookupOpcode ir = some (.bare i)) : encode i = [ir] :=
  encodedWith_of_lookup h

theorem encode_one {ir : Byte} {mk : Byte → Instr} (h : lookupOpcode ir = some (.one mk)) (a : Byte) :
    encode (mk a) = [ir, a] := encodedWith_of_lookup h a

theorem encode_two {ir : Byte} {mk : Byte → Byte → Instr} (h : lookupOpcode ir = some (.two mk)) (a b : Byte) :
    encode (mk a b) = [ir, a, b] := encodedWith_of_lookup h a b

end Sys2Proof
end

