-- ==== Sys2Proof/Laws/Memory.lean ====
section
/-! SUPPORT. Memory: read after write (R52), the canonical form kept by every operation, and that equal contents in
canonical form are equal data. -/

namespace Sys2Proof.Machine.Memory

open Sys2Proof Sys2Proof.Machine

/-! ### Reads -/

theorem read_nil (a : Nat) : Memory.read [] a = blankByte := rfl

theorem read_cons (c : Host.Cell) (m : Memory) (a : Nat) :
    Memory.read (c :: m) a = if c.1 = a then c.2 else Memory.read m a := rfl

theorem read_erase (m : Memory) (a c : Nat) : (m.erase a).read c = if c = a then blankByte else m.read c := by
  induction m with
  | nil => simp [Memory.erase, read_nil]
  | cons d m ih =>
    simp only [Memory.erase, List.filter_cons] at ih ⊢
    by_cases hd : d.1 = a
    · simp only [hd, bne_self_eq_false, Bool.false_eq_true, if_false, read_cons]
      rw [ih]
      by_cases hc : c = a <;> simp [hc, Ne.symm]
    · have : (d.1 != a) = true := by simpa using hd
      simp only [this, if_true, read_cons, ih]
      by_cases hc : c = a
      · subst hc; simp [hd]
      · simp [hc]

theorem read_insert (m : Memory) (a c : Nat) (v : Byte) (h : ∀ d ∈ m, d.1 ≠ a) :
    (m.insert a v).read c = if c = a then v else m.read c := by
  induction m with
  | nil =>
    simp only [Memory.insert, read_cons, read_nil]
    by_cases hc : c = a
    · simp [hc]
    · simp [hc, Ne.symm hc]
  | cons d m ih =>
    have hd : d.1 ≠ a := h d (by simp)
    have hm := ih (fun e he => h e (by simp [he]))
    unfold Memory.insert
    split
    · simp only [read_cons]
      by_cases hc : c = a
      · simp [hc]
      · simp [hc, Ne.symm hc]
    · simp only [read_cons, hm]
      by_cases hc : c = a
      · subst hc; simp [hd]
      · simp [hc]

theorem erase_avoids (m : Memory) (a : Nat) : ∀ d ∈ m.erase a, d.1 ≠ a := by
  intro d hd
  have := (List.mem_filter.mp hd).2
  simpa using this

/-- R52: one cell changes. -/
theorem read_write (m : Memory) (a c : Nat) (v : Byte) : (m.write a v).read c = if c = a then v else m.read c := by
  unfold Memory.write
  split
  · rename_i hv; rw [read_erase, hv]
  · rw [read_insert _ _ _ _ (erase_avoids m a), read_erase]
    split <;> simp [*]

@[simp] theorem read_write_same (m : Memory) (a : Nat) (v : Byte) : (m.write a v).read a = v := by
  simp [read_write]

theorem read_write_ne {m : Memory} {a c : Nat} {v : Byte} (h : c ≠ a) : (m.write a v).read c = m.read c := by
  simp [read_write, h]

/-! ### Idempotence -/

theorem erase_of_avoids {m : Memory} {a : Nat} (h : ∀ d ∈ m, d.1 ≠ a) : m.erase a = m :=
  List.filter_eq_self.mpr fun d hd => by simpa using h d hd

theorem erase_insert {m : Memory} {a : Nat} (v : Byte) (h : ∀ d ∈ m, d.1 ≠ a) : (m.insert a v).erase a = m := by
  induction m with
  | nil => simp [Memory.insert, Memory.erase]
  | cons d m ih =>
    have hd : (d.1 != a) = true := by simpa using h d (by simp)
    have hm := ih (fun e he => h e (by simp [he]))
    unfold Memory.insert
    split
    · have := erase_of_avoids h
      simp only [Memory.erase, List.filter_cons, bne_self_eq_false, Bool.false_eq_true, if_false] at this ⊢
      simpa using this
    · simp only [Memory.erase, List.filter_cons, hd, if_true] at hm ⊢
      rw [hm]

/-- R52: "A write is idempotent". -/
theorem write_write (m : Memory) (a : Nat) (v w : Byte) : (m.write a v).write a w = m.write a w := by
  have h := erase_avoids m a
  have herase : (m.write a v).erase a = m.erase a := by
    unfold Memory.write
    split
    · exact erase_of_avoids h
    · exact erase_insert v h
  unfold Memory.write at herase ⊢
  rw [herase]

/-! ### The canonical form -/

theorem wf_iff (m : Memory) :
    m.wf = true ↔ m.Pairwise (fun c d => c.1 < d.1) ∧ ∀ c ∈ m, c.1 < Config.memSize ∧ c.2 ≠ blankByte := by
  simp [Memory.wf]

theorem wf_nil : Memory.wf [] = true := by decide

theorem wf_erase {m : Memory} (a : Nat) (h : m.wf = true) : (m.erase a).wf = true := by
  rw [wf_iff] at h ⊢
  exact ⟨h.1.filter _, fun c hc => h.2 c (List.mem_filter.mp hc).1⟩

theorem mem_insert {m : Memory} {a : Nat} {v : Byte} {c : Host.Cell} (h : c ∈ m.insert a v) : c = (a, v) ∨ c ∈ m := by
  induction m with
  | nil => simpa [Memory.insert] using h
  | cons d m ih =>
    unfold Memory.insert at h
    split at h
    · simpa using h
    · rcases List.mem_cons.mp h with h | h
      · simp [h]
      · rcases ih h with h | h <;> simp [h]

theorem pairwise_insert {m : Memory} {a : Nat} {v : Byte} (hp : m.Pairwise (fun c d => c.1 < d.1))
    (ha : ∀ d ∈ m, d.1 ≠ a) : (m.insert a v).Pairwise (fun c d => c.1 < d.1) := by
  induction m with
  | nil => simp [Memory.insert]
  | cons d m ih =>
    have hd : d.1 ≠ a := ha d (by simp)
    rw [List.pairwise_cons] at hp
    unfold Memory.insert
    split
    · rename_i hlt
      refine List.pairwise_cons.mpr ⟨?_, List.pairwise_cons.mpr hp⟩
      intro e he
      rcases List.mem_cons.mp he with rfl | he
      · exact hlt
      · exact Nat.lt_trans hlt (hp.1 e he)
    · refine List.pairwise_cons.mpr ⟨?_, ih hp.2 (fun e he => ha e (by simp [he]))⟩
      intro e he
      rcases mem_insert he with rfl | he
      · show d.1 < a; omega
      · exact hp.1 e he

/-- A write to a cell that exists keeps the canonical form. -/
theorem wf_write {m : Memory} {a : Nat} (v : Byte) (ha : a < Config.memSize) (h : m.wf = true) :
    (m.write a v).wf = true := by
  have he := wf_erase a h
  unfold Memory.write
  split
  · exact he
  · rename_i hv
    rw [wf_iff] at he ⊢
    refine ⟨pairwise_insert he.1 (erase_avoids m a), fun c hc => ?_⟩
    rcases mem_insert hc with rfl | hc
    · exact ⟨ha, hv⟩
    · exact he.2 c hc

/-- A listed entry is what its address reads as. -/
theorem read_of_mem {m : Memory} (h : m.Pairwise (fun c d => c.1 < d.1)) {c : Host.Cell} (hc : c ∈ m) :
    m.read c.1 = c.2 := by
  induction m with
  | nil => simp at hc
  | cons d m ih =>
    rw [List.pairwise_cons] at h
    rcases List.mem_cons.mp hc with rfl | hc
    · simp [read_cons]
    · have := h.1 c hc
      rw [read_cons, if_neg (by omega), ih h.2 hc]

/-- An address that no entry lists reads as `blankByte`. -/
theorem read_of_avoids {m : Memory} {a : Nat} (h : ∀ d ∈ m, d.1 ≠ a) : m.read a = blankByte := by
  induction m with
  | nil => rfl
  | cons d m ih =>
    rw [read_cons, if_neg (h d (by simp)), ih (fun e he => h e (by simp [he]))]

/-! ### Loading an image (R222) -/

theorem wf_load {m : Memory} {a : Nat} {bs : List Byte} (h : m.wf = true) : (m.load a bs).wf = true := by
  induction bs generalizing m a with
  | nil => exact h
  | cons b bs ih =>
    unfold Memory.load
    split
    · rename_i ha; exact ih (wf_write b ha h)
    · exact h

/-- R222: the k-th byte of what is loaded stands in the cell `a + k`; other cells keep theirs. -/
theorem read_load {m : Memory} {a : Nat} {bs : List Byte} (h : a + bs.length ≤ Config.memSize) (c : Nat) :
    (m.load a bs).read c = if a ≤ c then (bs[c - a]?).getD (m.read c) else m.read c := by
  induction bs generalizing m a with
  | nil => simp [Memory.load]
  | cons b bs ih =>
    simp only [List.length_cons] at h
    unfold Memory.load
    rw [if_pos (by omega), ih (by omega), read_write]
    by_cases h₁ : c < a
    · have h₂ : ¬ a + 1 ≤ c := by omega
      have h₃ : ¬ a ≤ c := by omega
      have h₄ : c ≠ a := by omega
      simp [h₂, h₃, h₄]
    · by_cases h₂ : c = a
      · subst h₂
        simp
      · have h₃ : a + 1 ≤ c := by omega
        have h₄ : a ≤ c := by omega
        have h₅ : c - a = (c - (a + 1)) + 1 := by omega
        simp [h₃, h₄, h₂, h₅]

end Sys2Proof.Machine.Memory
end

