-- ==== Sys2Proof/Laws/State.lean ====
section
/-! SUPPORT. One lemma per field per update of State, so that no proof unfolds a record update. -/

namespace Sys2Proof.Machine

variable (s : State) (r q : Reg) (v w : Byte) (ev : Event) (ir : Byte) (f : RuntimeFault)

@[simp] theorem setReg_pc : (s.setReg r v).pc = s.pc := rfl
@[simp] theorem setReg_flags : (s.setReg r v).flags = s.flags := rfl
@[simp] theorem setReg_status : (s.setReg r v).status = s.status := rfl
@[simp] theorem setReg_mem : (s.setReg r v).mem = s.mem := rfl
@[simp] theorem setReg_out : (s.setReg r v).out = s.out := rfl

@[simp] theorem emit_regs : (s.emit ev).regs = s.regs := rfl
@[simp] theorem emit_reg : (s.emit ev).reg r = s.reg r := rfl
@[simp] theorem emit_pc : (s.emit ev).pc = s.pc := rfl
@[simp] theorem emit_flags : (s.emit ev).flags = s.flags := rfl
@[simp] theorem emit_status : (s.emit ev).status = s.status := rfl
@[simp] theorem emit_mem : (s.emit ev).mem = s.mem := rfl
@[simp] theorem emit_out : (s.emit ev).out = s.out ++ [ev] := rfl

@[simp] theorem halt_regs : s.halt.regs = s.regs := rfl
@[simp] theorem halt_reg : s.halt.reg r = s.reg r := rfl
@[simp] theorem halt_pc : s.halt.pc = s.pc := rfl
@[simp] theorem halt_flags : s.halt.flags = s.flags := rfl
@[simp] theorem halt_status : s.halt.status = .halted := rfl
@[simp] theorem halt_mem : s.halt.mem = s.mem := rfl
@[simp] theorem halt_out : s.halt.out = s.out := rfl

@[simp] theorem jump_regs : (s.jump v).regs = s.regs := rfl
@[simp] theorem jump_reg : (s.jump v).reg r = s.reg r := rfl
@[simp] theorem jump_pc : (s.jump v).pc = zext9 v := rfl
@[simp] theorem jump_flags : (s.jump v).flags = s.flags := rfl
@[simp] theorem jump_status : (s.jump v).status = s.status := rfl
@[simp] theorem jump_mem : (s.jump v).mem = s.mem := rfl
@[simp] theorem jump_out : (s.jump v).out = s.out := rfl

@[simp] theorem advance_regs : (s.advance ir).regs = s.regs := rfl
@[simp] theorem advance_reg : (s.advance ir).reg r = s.reg r := rfl
@[simp] theorem advance_flags : (s.advance ir).flags = s.flags := rfl
@[simp] theorem advance_status : (s.advance ir).status = s.status := rfl
@[simp] theorem advance_mem : (s.advance ir).mem = s.mem := rfl
@[simp] theorem advance_out : (s.advance ir).out = s.out := rfl

@[simp] theorem raise_regs : (raise f s).regs = s.regs := rfl
@[simp] theorem raise_reg : (raise f s).reg r = s.reg r := rfl
@[simp] theorem raise_pc : (raise f s).pc = s.pc := rfl
@[simp] theorem raise_flags : (raise f s).flags = s.flags := rfl
@[simp] theorem raise_status : (raise f s).status = .faulted f := rfl
@[simp] theorem raise_mem : (raise f s).mem = s.mem := rfl
@[simp] theorem raise_out : (raise f s).out = s.out := rfl

/-- Reading a register after a write (R8, R21: no register is hardwired). -/
theorem reg_setReg : (s.setReg r v).reg q = if q = r then v else s.reg q := by
  simp only [State.setReg, State.reg, Fin.getElem_fin, Vector.getElem_set, Fin.ext_iff]
  split <;> split <;> first | rfl | omega

@[simp] theorem reg_setReg_same : (s.setReg r v).reg r = v := by simp [reg_setReg]

theorem reg_setReg_ne {s : State} {r q : Reg} {v : Byte} (h : q ≠ r) : (s.setReg r v).reg q = s.reg q := by
  simp [reg_setReg, h]

/-- Two states with the same registers, read one by one, have the same register file. -/
theorem regs_ext {s t : State} (h : ∀ r, s.reg r = t.reg r) : s.regs = t.regs :=
  Vector.ext fun i hi => h ⟨i, hi⟩

/-- A state is determined by what can be read of it. -/
theorem state_ext {s t : State} (hr : ∀ r, s.reg r = t.reg r) (hp : s.pc = t.pc) (hf : s.flags = t.flags)
    (hs : s.status = t.status) (hm : s.mem = t.mem) (ho : s.out = t.out) : s = t := by
  have hregs := regs_ext hr
  cases s; cases t; simp_all

/-- A register written twice holds the second value. -/
@[simp] theorem setReg_setReg_same : (s.setReg r v).setReg r w = s.setReg r w :=
  state_ext (fun q => by simp only [reg_setReg]; split <;> rfl) rfl rfl rfl rfl rfl

/-- Writes to two registers commute. -/
theorem setReg_comm {r q : Reg} (h : r ≠ q) : (s.setReg r v).setReg q w = (s.setReg q w).setReg r v :=
  state_ext
    (fun x => by
      simp only [reg_setReg]
      by_cases h₁ : x = q
      · have : x ≠ r := fun h₂ => h (h₂.symm.trans h₁)
        simp [h₁, Ne.symm h]
      · simp [h₁])
    rfl rfl rfl rfl rfl

/-- A load of the target's own number: `zext_9` keeps the value (R8). -/
@[simp] theorem zext9_toNat : (zext9 v).toNat = v.toNat := by
  simp only [zext9, BitVec.toNat_setWidth]
  have := v.isLt
  omega

end Sys2Proof.Machine
end

