-- ==== Sys2Proof/Laws/Ops.lean ====
section
/-! SUPPORT. One lemma per shared operation that says what it does; the meanings' proofs cite these. -/

namespace Sys2Proof.Machine

/-! ### Handlers -/

@[simp] theorem conclude_ok (s t : State) : conclude s (.ok t) = .next t := rfl
@[simp] theorem conclude_error (s : State) (f : RuntimeFault) : conclude s (.error f) = .next (raise f s) := rfl
@[simp] theorem conclude_pure (s t : State) : conclude s (pure t) = .next t := rfl

@[simp] theorem ok_bind {α β : Type} (a : α) (k : α → Except RuntimeFault β) : ((.ok a : Except RuntimeFault α) >>= k) = k a := rfl
@[simp] theorem error_bind {α β : Type} (f : RuntimeFault) (k : α → Except RuntimeFault β) :
    ((.error f : Except RuntimeFault α) >>= k) = .error f := rfl
@[simp] theorem pure_eq_ok {α : Type} (a : α) : (pure a : Except RuntimeFault α) = .ok a := rfl

/-! ### Operands (R73, R105) -/

theorem regOperand_ok {b : Byte} {r : Reg} (h : b.toNat = r.val) : regOperand b = .ok r := by
  have hr := r.isLt
  simp only [regOperand]
  rw [dif_pos (by omega)]
  exact congrArg _ (Fin.ext h)

theorem regOperand_bad {b : Byte} (h : 8 ≤ b.toNat) : regOperand b = .error (.registerIndexFault b) := by
  simp only [regOperand]
  rw [dif_neg (by omega)]

/-- A register operand byte names a register or faults. -/
theorem regOperand_cases (b : Byte) :
    (∃ r : Reg, b.toNat = r.val ∧ regOperand b = .ok r) ∨
    (8 ≤ b.toNat ∧ regOperand b = .error (.registerIndexFault b)) := by
  by_cases h : b.toNat < 8
  · exact .inl ⟨⟨b.toNat, h⟩, rfl, regOperand_ok rfl⟩
  · exact .inr ⟨by omega, regOperand_bad (by omega)⟩

theorem withReg_ok {a : Byte} {r : Reg} (h : a.toNat = r.val) (s : State) (k : Reg → Handler) :
    withReg a s k = conclude s (k r) := by simp [withReg, regOperand_ok h]

theorem withReg_bad {a : Byte} (h : 8 ≤ a.toNat) (s : State) (k : Reg → Handler) :
    withReg a s k = .next (raise (.registerIndexFault a) s) := by simp [withReg, regOperand_bad h]

theorem withRegs_ok {a b : Byte} {ra rb : Reg} (ha : a.toNat = ra.val) (hb : b.toNat = rb.val) (s : State)
    (k : Reg → Reg → Handler) : withRegs a b s k = conclude s (k ra rb) := by
  simp [withRegs, regOperand_ok ha, regOperand_ok hb]

theorem withRegs_badFirst {a : Byte} (h : 8 ≤ a.toNat) (b : Byte) (s : State) (k : Reg → Reg → Handler) :
    withRegs a b s k = .next (raise (.registerIndexFault a) s) := by simp [withRegs, regOperand_bad h]

theorem withRegs_badSecond {a b : Byte} (ha : a.toNat < 8) (hb : 8 ≤ b.toNat) (s : State) (k : Reg → Reg → Handler) :
    withRegs a b s k = .next (raise (.registerIndexFault b) s) := by
  simp [withRegs, regOperand_ok (b := a) (r := ⟨a.toNat, ha⟩) rfl, regOperand_bad hb]

/-! ### Memory (R51 to R54) -/

theorem memRead_ok {a : Nat} (h : a < 256) (s : State) : memRead s a = .ok (s.mem.read a) := by
  simp [memRead, Config.memSize, h]

theorem memRead_fault {a : Nat} (h : 256 ≤ a) (s : State) : memRead s a = .error (.memoryFault a) := by
  simp [memRead, Config.memSize, Nat.not_lt.mpr h]

/-- R54: an address formed from a register is in range. -/
@[simp] theorem memRead_byte (s : State) (b : Byte) : memRead s b.toNat = .ok (s.mem.read b.toNat) :=
  memRead_ok b.isLt s

theorem memWrite_ok {a : Nat} (h : a < 256) (s : State) (v : Byte) :
    memWrite s a v = .ok { s with mem := s.mem.write a v } := by simp [memWrite, Config.memSize, h]

theorem memWrite_fault {a : Nat} (h : 256 ≤ a) (s : State) (v : Byte) : memWrite s a v = .error (.memoryFault a) := by
  simp [memWrite, Config.memSize, Nat.not_lt.mpr h]

@[simp] theorem memWrite_byte (s : State) (b v : Byte) :
    memWrite s b.toNat v = .ok { s with mem := s.mem.write b.toNat v } := memWrite_ok b.isLt s v

/-! ### The stack (R160, R161) -/

/-- The state after the two statements of a push. -/
def pushed (s : State) (r : Reg) : State :=
  { s.setReg spReg (s.reg spReg - 1) with
    mem := s.mem.write (s.reg spReg - 1).toNat ((s.setReg spReg (s.reg spReg - 1)).reg r) }

/-- A push never faults (R163). -/
@[simp] theorem push_eq (s : State) (r : Reg) : s.push r = .ok (pushed s r) := by
  simp only [State.push, pushed, reg_setReg_same, memWrite_byte, setReg_mem]

@[simp] theorem pushed_pc (s : State) (r : Reg) : (pushed s r).pc = s.pc := rfl
@[simp] theorem pushed_flags (s : State) (r : Reg) : (pushed s r).flags = s.flags := rfl
@[simp] theorem pushed_status (s : State) (r : Reg) : (pushed s r).status = s.status := rfl
@[simp] theorem pushed_out (s : State) (r : Reg) : (pushed s r).out = s.out := rfl
@[simp] theorem pushed_mem (s : State) (r : Reg) :
    (pushed s r).mem = s.mem.write (s.reg spReg - 1).toNat (if r = spReg then s.reg spReg - 1 else s.reg r) := by
  simp [pushed, reg_setReg]
theorem pushed_reg (s : State) (r q : Reg) :
    (pushed s r).reg q = if q = spReg then s.reg spReg - 1 else s.reg q := reg_setReg s spReg q _

@[simp] theorem popSp_pc (s : State) : s.popSp.pc = s.pc := rfl
@[simp] theorem popSp_flags (s : State) : s.popSp.flags = s.flags := rfl
@[simp] theorem popSp_status (s : State) : s.popSp.status = s.status := rfl
@[simp] theorem popSp_mem (s : State) : s.popSp.mem = s.mem := rfl
@[simp] theorem popSp_out (s : State) : s.popSp.out = s.out := rfl
theorem popSp_reg (s : State) (q : Reg) : s.popSp.reg q = if q = spReg then s.reg spReg + 1 else s.reg q :=
  reg_setReg s spReg q _

/-- SP - 1 as a number. -/
theorem sub_one_toNat (b : Byte) : (b - 1).toNat = (b.toNat + 255) % 256 := by
  rw [BitVec.toNat_sub]
  simp
  omega

/-- SP + 1 as a number. -/
theorem add_one_toNat (b : Byte) : (b + 1).toNat = (b.toNat + 1) % 256 := by
  rw [BitVec.toNat_add]
  simp

/-! ### The loader's contract (R222) -/

theorem imageFits_iff (image : List Byte) : imageFits image = true ↔ 1 ≤ image.length ∧ image.length ≤ 256 := by
  simp only [imageFits, Bool.and_eq_true, decide_eq_true_eq]
  rfl

/-- A run starts from an image that fits, with the image in memory and every other element as given. -/
theorem launch_eq_some {image : List Byte} {regs : Vector Byte 8} {flags : Flags} {s : State}
    (h : State.launch image regs flags = some s) :
    imageFits image = true ∧
      s = { State.reset with mem := State.reset.mem.load 0 image, regs := regs, flags := flags } := by
  unfold State.launch at h
  split at h
  · exact ⟨by assumption, (Option.some.inj h).symm⟩
  · cases h

/-! ### The PC advance (R106) -/

theorem advance_pc (s : State) (ir : Byte) : (s.advance ir).pc = s.pc + BitVec.ofNat 9 (1 + operandCount ir) := rfl

/-- From an address 0 to 255 the advance is the sum of numbers: PC never wraps (R25). -/
theorem advance_pc_toNat {s : State} (h : s.pc.toNat ≤ 255) (ir : Byte) :
    (s.advance ir).pc.toNat = s.pc.toNat + 1 + operandCount ir := by
  have := operandCount_lt ir
  rw [advance_pc, BitVec.toNat_add, BitVec.toNat_ofNat]
  omega

end Sys2Proof.Machine
end

