-- ==== Sys2Proof/Laws/Exec.lean ====
section
/-! SUPPORT. What each instruction does when its operand bytes name registers (one equation per instruction), and once and
for all everything `exec` can do (`exec_effect`), from which whole-machine facts follow by cases. -/

namespace Sys2Proof.Machine

/-! ### One equation per instruction -/

section Equations

variable {a b : Byte} {ra rb : Reg} (s : State)

theorem exec_hlt : exec .hlt s = .next (s.halt.advance Opcode.hlt) := rfl

theorem exec_ldi (h : a.toNat = ra.val) (v : Byte) :
    exec (.ldi a v) s = .next ((s.setReg ra v).advance Opcode.ldi) := by
  simp [exec, execLdi, withReg_ok h, immOperand]

theorem exec_prn (h : a.toNat = ra.val) :
    exec (.prn a) s = .next ((s.emit (.print (s.reg ra))).advance Opcode.prn) := by
  simp [exec, execPrn, withReg_ok h]

theorem aluBinary_ok (ir : Byte) (f : Byte → Byte → Byte) (h : a.toNat = ra.val) (h' : b.toNat = rb.val) :
    aluBinary ir f a b s = .next ((s.setReg ra (f (s.reg ra) (s.reg rb))).advance ir) := by
  simp [aluBinary, withRegs_ok h h']

theorem exec_mod_zero (h : a.toNat = ra.val) (h' : b.toNat = rb.val) (hz : s.reg rb = 0) :
    exec (.mod a b) s = .next ((s.emit .invalidDivisor).halt.advance Opcode.mod) := by
  simp only [exec, execMod, withRegs_ok h h', hz, if_true, pure_eq_ok, conclude_ok]

theorem exec_mod (h : a.toNat = ra.val) (h' : b.toNat = rb.val) (hz : s.reg rb ≠ 0) :
    exec (.mod a b) s = .next ((s.setReg ra (aluMod (s.reg ra) (s.reg rb))).advance Opcode.mod) := by
  simp only [exec, execMod, withRegs_ok h h', hz, if_false, pure_eq_ok, conclude_ok]

theorem exec_not (h : a.toNat = ra.val) :
    exec (.not a) s = .next ((s.setReg ra (aluNot (s.reg ra))).advance Opcode.not) := by
  simp [exec, execNot, withReg_ok h]

theorem exec_cmp (h : a.toNat = ra.val) (h' : b.toNat = rb.val) :
    exec (.cmp a b) s = .next (State.advance { s with flags := compareFlags (s.reg ra) (s.reg rb) } Opcode.cmp) := by
  simp [exec, execCmp, withRegs_ok h h']

theorem exec_push (h : a.toNat = ra.val) : exec (.push a) s = .next ((pushed s ra).advance Opcode.push) := by
  simp [exec, execPush, withReg_ok h]

theorem exec_pop (h : a.toNat = ra.val) :
    exec (.pop a) s = .next ((s.setReg ra (s.mem.read (s.reg spReg).toNat)).popSp.advance Opcode.pop) := by
  simp [exec, execPop, withReg_ok h]

/-- The state of a CALL before the jump: the link register written and pushed. -/
def called (s : State) : State := pushed (s.setReg linkReg (BitVec.ofNat 8 (s.pc.toNat + 2))) linkReg

theorem exec_call (h : a.toNat = ra.val) (hpc : s.pc.toNat + 2 < 256) :
    exec (.call a) s = .next ((called s).jump ((called s).reg ra)) := by
  simp [exec, execCall, withReg_ok h, Config.memSize, hpc, called]

theorem exec_call_fault (h : a.toNat = ra.val) (hpc : 256 ≤ s.pc.toNat + 2) :
    exec (.call a) s = .next (raise (.memoryFault (s.pc.toNat + 2)) s) := by
  simp [exec, execCall, withReg_ok h, Config.memSize, Nat.not_lt.mpr hpc]

theorem exec_ret : exec .ret s = .next (s.jump (s.mem.read (s.reg spReg).toNat)).popSp := by
  simp [exec, execRet]

theorem exec_jmp (h : a.toNat = ra.val) : exec (.jmp a) s = .next (s.jump (s.reg ra)) := by
  simp [exec, execJmp, withReg_ok h]

theorem exec_jeq (h : a.toNat = ra.val) : exec (.jeq a) s = .next (jumpIf s.flags.e Opcode.jeq ra s) := by
  simp [exec, execJeq, withReg_ok h]

theorem exec_jne (h : a.toNat = ra.val) : exec (.jne a) s = .next (jumpIf (!s.flags.e) Opcode.jne ra s) := by
  simp [exec, execJne, withReg_ok h]

end Equations

/-! ### The fields after a conditional jump -/

section JumpIf

variable (c : Bool) (ir : Byte) (r q : Reg) (s : State)

@[simp] theorem jumpIf_regs : (jumpIf c ir r s).regs = s.regs := by cases c <;> rfl
@[simp] theorem jumpIf_reg : (jumpIf c ir r s).reg q = s.reg q := by cases c <;> rfl
@[simp] theorem jumpIf_flags : (jumpIf c ir r s).flags = s.flags := by cases c <;> rfl
@[simp] theorem jumpIf_status : (jumpIf c ir r s).status = s.status := by cases c <;> rfl
@[simp] theorem jumpIf_mem : (jumpIf c ir r s).mem = s.mem := by cases c <;> rfl
@[simp] theorem jumpIf_out : (jumpIf c ir r s).out = s.out := by cases c <;> rfl

end JumpIf

/-! ### The fields after a CALL's push -/

@[simp] theorem called_pc (s : State) : (called s).pc = s.pc := rfl
@[simp] theorem called_flags (s : State) : (called s).flags = s.flags := rfl
@[simp] theorem called_status (s : State) : (called s).status = s.status := rfl
@[simp] theorem called_out (s : State) : (called s).out = s.out := rfl
theorem called_mem (s : State) :
    (called s).mem = s.mem.write (s.reg spReg - 1).toNat (BitVec.ofNat 8 (s.pc.toNat + 2)) := by
  have h : linkReg ≠ spReg := by decide
  have h' : spReg ≠ linkReg := by decide
  simp only [called, pushed_mem, reg_setReg, if_neg h, if_neg h', if_true, setReg_mem]
theorem called_reg (s : State) (q : Reg) :
    (called s).reg q =
      if q = spReg then s.reg spReg - 1 else if q = linkReg then BitVec.ofNat 8 (s.pc.toNat + 2) else s.reg q := by
  have h : spReg ≠ linkReg := by decide
  simp only [called, pushed_reg, reg_setReg, if_neg h]

/-! ### Everything an instruction can do -/

/-- The paths of `exec`: a fault raised on the state at the start, or the instruction's own effect. -/
inductive Effect : Instr → State → State → Prop
  | badOperand {i s b} (hf : i.regOperands.find? (fun r => decide (7 < r.toNat)) = some b) (hb : 8 ≤ b.toNat) :
      Effect i s (raise (.registerIndexFault b) s)
  | returnAddress {s a ra} (ha : a.toNat = Fin.val (n := 8) ra) (h : 256 ≤ s.pc.toNat + 2) :
      Effect (.call a) s (raise (.memoryFault (s.pc.toNat + 2)) s)
  | hlt {s} : Effect .hlt s (s.halt.advance Opcode.hlt)
  | ldi {s a v ra} (ha : a.toNat = Fin.val (n := 8) ra) : Effect (.ldi a v) s ((s.setReg ra v).advance Opcode.ldi)
  | prn {s a ra} (ha : a.toNat = Fin.val (n := 8) ra) :
      Effect (.prn a) s ((s.emit (.print (s.reg ra))).advance Opcode.prn)
  | add {s a b ra rb} (ha : a.toNat = Fin.val (n := 8) ra) (hb : b.toNat = Fin.val (n := 8) rb) :
      Effect (.add a b) s ((s.setReg ra (aluAdd (s.reg ra) (s.reg rb))).advance Opcode.add)
  | mul {s a b ra rb} (ha : a.toNat = Fin.val (n := 8) ra) (hb : b.toNat = Fin.val (n := 8) rb) :
      Effect (.mul a b) s ((s.setReg ra (aluMul (s.reg ra) (s.reg rb))).advance Opcode.mul)
  | modHalt {s a b ra rb} (ha : a.toNat = Fin.val (n := 8) ra) (hb : b.toNat = Fin.val (n := 8) rb) (h : s.reg rb = 0) :
      Effect (.mod a b) s ((s.emit .invalidDivisor).halt.advance Opcode.mod)
  | mod {s a b ra rb} (ha : a.toNat = Fin.val (n := 8) ra) (hb : b.toNat = Fin.val (n := 8) rb) (h : s.reg rb ≠ 0) :
      Effect (.mod a b) s ((s.setReg ra (aluMod (s.reg ra) (s.reg rb))).advance Opcode.mod)
  | and {s a b ra rb} (ha : a.toNat = Fin.val (n := 8) ra) (hb : b.toNat = Fin.val (n := 8) rb) :
      Effect (.and a b) s ((s.setReg ra (aluAnd (s.reg ra) (s.reg rb))).advance Opcode.and)
  | or {s a b ra rb} (ha : a.toNat = Fin.val (n := 8) ra) (hb : b.toNat = Fin.val (n := 8) rb) :
      Effect (.or a b) s ((s.setReg ra (aluOr (s.reg ra) (s.reg rb))).advance Opcode.or)
  | xor {s a b ra rb} (ha : a.toNat = Fin.val (n := 8) ra) (hb : b.toNat = Fin.val (n := 8) rb) :
      Effect (.xor a b) s ((s.setReg ra (aluXor (s.reg ra) (s.reg rb))).advance Opcode.xor)
  | not {s a ra} (ha : a.toNat = Fin.val (n := 8) ra) :
      Effect (.not a) s ((s.setReg ra (aluNot (s.reg ra))).advance Opcode.not)
  | shl {s a b ra rb} (ha : a.toNat = Fin.val (n := 8) ra) (hb : b.toNat = Fin.val (n := 8) rb) :
      Effect (.shl a b) s ((s.setReg ra (aluShl (s.reg ra) (s.reg rb))).advance Opcode.shl)
  | shr {s a b ra rb} (ha : a.toNat = Fin.val (n := 8) ra) (hb : b.toNat = Fin.val (n := 8) rb) :
      Effect (.shr a b) s ((s.setReg ra (aluShr (s.reg ra) (s.reg rb))).advance Opcode.shr)
  | cmp {s a b ra rb} (ha : a.toNat = Fin.val (n := 8) ra) (hb : b.toNat = Fin.val (n := 8) rb) :
      Effect (.cmp a b) s (State.advance { s with flags := compareFlags (s.reg ra) (s.reg rb) } Opcode.cmp)
  | push {s a ra} (ha : a.toNat = Fin.val (n := 8) ra) : Effect (.push a) s ((pushed s ra).advance Opcode.push)
  | pop {s a ra} (ha : a.toNat = Fin.val (n := 8) ra) :
      Effect (.pop a) s ((s.setReg ra (s.mem.read (s.reg spReg).toNat)).popSp.advance Opcode.pop)
  | call {s a ra} (ha : a.toNat = Fin.val (n := 8) ra) (h : s.pc.toNat + 2 < 256) :
      Effect (.call a) s ((called s).jump ((called s).reg ra))
  | ret {s} : Effect .ret s (s.jump (s.mem.read (s.reg spReg).toNat)).popSp
  | jmp {s a ra} (ha : a.toNat = Fin.val (n := 8) ra) : Effect (.jmp a) s (s.jump (s.reg ra))
  | jeq {s a ra} (ha : a.toNat = Fin.val (n := 8) ra) : Effect (.jeq a) s (jumpIf s.flags.e Opcode.jeq ra s)
  | jne {s a ra} (ha : a.toNat = Fin.val (n := 8) ra) : Effect (.jne a) s (jumpIf (!s.flags.e) Opcode.jne ra s)

section EffectProofs

variable {i : Instr} {s : State} {a b : Byte}

/-- One register operand: the instruction's own effect for the register it names, or the fault. -/
theorem effect_of_one {mk : Byte → Instr} {k : Reg → Handler} (hexec : exec (mk a) s = withReg a s k)
    (hregs : (mk a).regOperands = [a])
    (hk : ∀ r : Reg, a.toNat = r.val → ∃ t, conclude s (k r) = .next t ∧ Effect (mk a) s t) :
    ∃ t, exec (mk a) s = .next t ∧ Effect (mk a) s t := by
  by_cases h : a.toNat < 8
  · rw [hexec, withReg_ok (r := ⟨a.toNat, h⟩) rfl]
    exact hk ⟨a.toNat, h⟩ rfl
  · rw [hexec, withReg_bad (by omega)]
    refine ⟨_, rfl, .badOperand ?_ (by omega)⟩
    simp only [hregs, List.find?_singleton]
    rw [if_pos (by simpa using (by omega : 7 < a.toNat))]

/-- Two register operands: the instruction's own effect, or the fault of the first bad one. -/
theorem effect_of_two {mk : Byte → Byte → Instr} {k : Reg → Reg → Handler} (hexec : exec (mk a b) s = withRegs a b s k)
    (hregs : (mk a b).regOperands = [a, b])
    (hk : ∀ ra rb : Reg, a.toNat = ra.val → b.toNat = rb.val →
      ∃ t, conclude s (k ra rb) = .next t ∧ Effect (mk a b) s t) :
    ∃ t, exec (mk a b) s = .next t ∧ Effect (mk a b) s t := by
  by_cases ha : a.toNat < 8
  · by_cases hb : b.toNat < 8
    · rw [hexec, withRegs_ok (ra := ⟨a.toNat, ha⟩) (rb := ⟨b.toNat, hb⟩) rfl rfl]
      exact hk ⟨a.toNat, ha⟩ ⟨b.toNat, hb⟩ rfl rfl
    · rw [hexec, withRegs_badSecond ha (by omega)]
      refine ⟨_, rfl, .badOperand ?_ (by omega)⟩
      rw [hregs, List.find?_cons_of_neg (by simpa using (by omega : a.toNat ≤ 7)), List.find?_singleton,
        if_pos (by simpa using (by omega : 7 < b.toNat))]
  · rw [hexec, withRegs_badFirst (by omega)]
    refine ⟨_, rfl, .badOperand ?_ (by omega)⟩
    rw [hregs, List.find?_cons_of_pos (by simpa using (by omega : 7 < a.toNat))]

/-- Every instruction answers a next state, by one of the paths of `Effect`. -/
theorem exec_effect_exists (i : Instr) (s : State) : ∃ t, exec i s = .next t ∧ Effect i s t := by
  cases i with
  | hlt => exact ⟨_, exec_hlt s, .hlt⟩
  | ret => exact ⟨_, exec_ret s, .ret⟩
  | ldi a v => exact effect_of_one (mk := fun a => .ldi a v) rfl rfl fun r h => ⟨_, rfl, .ldi h⟩
  | prn a => exact effect_of_one rfl rfl fun r h => ⟨_, rfl, .prn h⟩
  | not a => exact effect_of_one rfl rfl fun r h => ⟨_, rfl, .not h⟩
  | push a => exact effect_of_one rfl rfl fun r h => ⟨_, by simp, .push h⟩
  | pop a => exact effect_of_one rfl rfl fun r h => ⟨_, by simp, .pop h⟩
  | jmp a => exact effect_of_one rfl rfl fun r h => ⟨_, rfl, .jmp h⟩
  | jeq a => exact effect_of_one rfl rfl fun r h => ⟨_, rfl, .jeq h⟩
  | jne a => exact effect_of_one rfl rfl fun r h => ⟨_, rfl, .jne h⟩
  | call a =>
    refine effect_of_one rfl rfl fun r h => ?_
    by_cases hpc : s.pc.toNat + 2 < 256
    · exact ⟨_, by simp only [Config.memSize, hpc, if_true, push_eq, ok_bind, pure_eq_ok, conclude_ok]; rfl, .call h hpc⟩
    · exact ⟨_, by simp only [Config.memSize, hpc, if_false, conclude_error], .returnAddress h (by omega)⟩
  | add a b => exact effect_of_two rfl rfl fun ra rb h h' => ⟨_, rfl, .add h h'⟩
  | mul a b => exact effect_of_two rfl rfl fun ra rb h h' => ⟨_, rfl, .mul h h'⟩
  | and a b => exact effect_of_two rfl rfl fun ra rb h h' => ⟨_, rfl, .and h h'⟩
  | or a b => exact effect_of_two rfl rfl fun ra rb h h' => ⟨_, rfl, .or h h'⟩
  | xor a b => exact effect_of_two rfl rfl fun ra rb h h' => ⟨_, rfl, .xor h h'⟩
  | shl a b => exact effect_of_two rfl rfl fun ra rb h h' => ⟨_, rfl, .shl h h'⟩
  | shr a b => exact effect_of_two rfl rfl fun ra rb h h' => ⟨_, rfl, .shr h h'⟩
  | cmp a b => exact effect_of_two rfl rfl fun ra rb h h' => ⟨_, rfl, .cmp h h'⟩
  | mod a b =>
    refine effect_of_two rfl rfl fun ra rb h h' => ?_
    by_cases hz : s.reg rb = 0
    · exact ⟨_, by simp only [hz, if_true, pure_eq_ok, conclude_ok], .modHalt h h' hz⟩
    · exact ⟨_, by simp only [hz, if_false, pure_eq_ok, conclude_ok], .mod h h' hz⟩

/-- The inversion of `exec`: cite this, then `cases`. -/
theorem exec_effect {t : State} (h : exec i s = .next t) : Effect i s t := by
  obtain ⟨u, hu, he⟩ := exec_effect_exists i s
  rw [hu] at h
  cases h
  exact he

end EffectProofs

end Sys2Proof.Machine
end

