-- ==== Sys2Proof/Laws/PerInstr.lean ====
section
/-! SUPPORT. The statement made per instruction: the shape of its encoding. -/

namespace Sys2Proof.Laws.EncodingShape

/-- R70, R72: the encoding is an opcode byte and as many operand bytes as its bits 7:6 announce, and the operand bytes that
the format declares register indices come first, in order. -/
def Statement (i : Instr) : Prop :=
  ∃ ir operands, encode i = ir :: operands ∧ operands.length = operandCount ir ∧ i.regOperands <+: operands

theorem hlt : Statement (.hlt) := ⟨Opcode.hlt, [], rfl, rfl, List.prefix_refl _⟩
theorem ldi (a b : Byte) : Statement (.ldi a b) := ⟨Opcode.ldi, [a, b], rfl, rfl, ⟨[b], rfl⟩⟩
theorem prn (a : Byte) : Statement (.prn a) := ⟨Opcode.prn, [a], rfl, rfl, List.prefix_refl _⟩
theorem add (a b : Byte) : Statement (.add a b) := ⟨Opcode.add, [a, b], rfl, rfl, List.prefix_refl _⟩
theorem mul (a b : Byte) : Statement (.mul a b) := ⟨Opcode.mul, [a, b], rfl, rfl, List.prefix_refl _⟩
theorem mod (a b : Byte) : Statement (.mod a b) := ⟨Opcode.mod, [a, b], rfl, rfl, List.prefix_refl _⟩
theorem and (a b : Byte) : Statement (.and a b) := ⟨Opcode.and, [a, b], rfl, rfl, List.prefix_refl _⟩
theorem or (a b : Byte) : Statement (.or a b) := ⟨Opcode.or, [a, b], rfl, rfl, List.prefix_refl _⟩
theorem xor (a b : Byte) : Statement (.xor a b) := ⟨Opcode.xor, [a, b], rfl, rfl, List.prefix_refl _⟩
theorem not (a : Byte) : Statement (.not a) := ⟨Opcode.not, [a], rfl, rfl, List.prefix_refl _⟩
theorem shl (a b : Byte) : Statement (.shl a b) := ⟨Opcode.shl, [a, b], rfl, rfl, List.prefix_refl _⟩
theorem shr (a b : Byte) : Statement (.shr a b) := ⟨Opcode.shr, [a, b], rfl, rfl, List.prefix_refl _⟩
theorem cmp (a b : Byte) : Statement (.cmp a b) := ⟨Opcode.cmp, [a, b], rfl, rfl, List.prefix_refl _⟩
theorem push (a : Byte) : Statement (.push a) := ⟨Opcode.push, [a], rfl, rfl, List.prefix_refl _⟩
theorem pop (a : Byte) : Statement (.pop a) := ⟨Opcode.pop, [a], rfl, rfl, List.prefix_refl _⟩
theorem call (a : Byte) : Statement (.call a) := ⟨Opcode.call, [a], rfl, rfl, List.prefix_refl _⟩
theorem ret : Statement (.ret) := ⟨Opcode.ret, [], rfl, rfl, List.prefix_refl _⟩
theorem jmp (a : Byte) : Statement (.jmp a) := ⟨Opcode.jmp, [a], rfl, rfl, List.prefix_refl _⟩
theorem jeq (a : Byte) : Statement (.jeq a) := ⟨Opcode.jeq, [a], rfl, rfl, List.prefix_refl _⟩
theorem jne (a : Byte) : Statement (.jne a) := ⟨Opcode.jne, [a], rfl, rfl, List.prefix_refl _⟩

end Sys2Proof.Laws.EncodingShape
end

