-- ==== Sys2Proof/Laws/Step.lean ====
section
/-! SUPPORT. Fetch and step, case by case, and once and for all everything a step can do (`step_cases`). -/

namespace Sys2Proof.Machine

/-! ### Fetch (R102, R103) -/

section Fetch

variable {s : State}

theorem fetch_past (h : 256 ≤ s.pc.toNat) : fetch s = .error (.memoryFault s.pc.toNat) := by
  simp [fetch, memRead_fault h]

theorem fetch_unknown (h : s.pc.toNat < 256) (hl : lookupOpcode (s.mem.read s.pc.toNat) = none) :
    fetch s = .ok (.unknown (s.mem.read s.pc.toNat)) := by
  simp [fetch, memRead_ok h, hl]

theorem fetch_bare {i : Instr} (h : s.pc.toNat < 256) (hl : lookupOpcode (s.mem.read s.pc.toNat) = some (.bare i)) :
    fetch s = .ok (.instr i) := by
  simp [fetch, memRead_ok h, hl]

theorem fetch_one {mk : Byte → Instr} (h : s.pc.toNat + 1 < 256)
    (hl : lookupOpcode (s.mem.read s.pc.toNat) = some (.one mk)) :
    fetch s = .ok (.instr (mk (s.mem.read (s.pc.toNat + 1)))) := by
  simp [fetch, memRead_ok (by omega : s.pc.toNat < 256), memRead_ok h, hl]

theorem fetch_one_fault {mk : Byte → Instr} (h : s.pc.toNat = 255)
    (hl : lookupOpcode (s.mem.read s.pc.toNat) = some (.one mk)) : fetch s = .error (.memoryFault 256) := by
  rw [h] at hl
  simp [fetch, h, memRead_ok (by omega : 255 < 256), memRead_fault (Nat.le_refl 256), hl]

theorem fetch_two {mk : Byte → Byte → Instr} (h : s.pc.toNat + 2 < 256)
    (hl : lookupOpcode (s.mem.read s.pc.toNat) = some (.two mk)) :
    fetch s = .ok (.instr (mk (s.mem.read (s.pc.toNat + 1)) (s.mem.read (s.pc.toNat + 2)))) := by
  simp [fetch, memRead_ok (by omega : s.pc.toNat < 256), memRead_ok (by omega : s.pc.toNat + 1 < 256), memRead_ok h, hl]

theorem fetch_two_fault {mk : Byte → Byte → Instr} (h : s.pc.toNat = 255 ∨ s.pc.toNat = 254)
    (hl : lookupOpcode (s.mem.read s.pc.toNat) = some (.two mk)) : fetch s = .error (.memoryFault 256) := by
  rcases h with h | h <;> rw [h] at hl
  · simp [fetch, h, memRead_ok (by omega : 255 < 256), memRead_fault (Nat.le_refl 256), hl]
  · simp [fetch, h, memRead_ok (by omega : 254 < 256), memRead_ok (by omega : 255 < 256),
      memRead_fault (Nat.le_refl 256), hl]

/-- Fetch reads PC and memory alone. -/
theorem fetch_congr {s' : State} (hp : s'.pc = s.pc) (hm : s'.mem = s.mem) : fetch s' = fetch s := by
  simp only [fetch, memRead, hp, hm]

end Fetch

/-! ### Step -/

section Step

variable {s : State}

theorem step_of_fetch_error {f : RuntimeFault} (hs : s.status = .running) (h : fetch s = .error f) :
    step s = .next (raise f s) := by simp [step, hs, h]

theorem step_of_fetch_unknown {ir : Byte} (hs : s.status = .running) (h : fetch s = .ok (.unknown ir)) :
    step s = .next (s.advance ir) := by simp [step, hs, h, skipUnknown]

theorem step_of_fetch_instr {i : Instr} (hs : s.status = .running) (h : fetch s = .ok (.instr i)) :
    step s = exec i s := by simp [step, hs, h]

theorem step_of_not_running (hs : s.status ≠ .running) : ∃ r, step s = .fault r := by
  rcases h : s.status with _ | _ | f
  · exact absurd h hs
  · exact ⟨.halted, by simp [step, h]⟩
  · exact ⟨.faulted f, by simp [step, h]⟩

/-- What fetch comes to, with where the bytes stand. -/
inductive FetchCase (s : State) : Prop
  | past (h : 256 ≤ s.pc.toNat) (hf : fetch s = .error (.memoryFault s.pc.toNat))
  | unknown (h : s.pc.toNat < 256) (hl : lookupOpcode (s.mem.read s.pc.toNat) = none)
      (hf : fetch s = .ok (.unknown (s.mem.read s.pc.toNat)))
  | operandFault {f : Form} (h : s.pc.toNat < 256) (hl : lookupOpcode (s.mem.read s.pc.toNat) = some f)
      (hn : 256 ≤ s.pc.toNat + f.arity) (hf : fetch s = .error (.memoryFault 256))
  | bare {i : Instr} (h : s.pc.toNat < 256) (hl : lookupOpcode (s.mem.read s.pc.toNat) = some (.bare i))
      (hf : fetch s = .ok (.instr i))
  | one {mk : Byte → Instr} (h : s.pc.toNat + 1 < 256) (hl : lookupOpcode (s.mem.read s.pc.toNat) = some (.one mk))
      (hf : fetch s = .ok (.instr (mk (s.mem.read (s.pc.toNat + 1)))))
  | two {mk : Byte → Byte → Instr} (h : s.pc.toNat + 2 < 256)
      (hl : lookupOpcode (s.mem.read s.pc.toNat) = some (.two mk))
      (hf : fetch s = .ok (.instr (mk (s.mem.read (s.pc.toNat + 1)) (s.mem.read (s.pc.toNat + 2)))))

theorem fetch_cases (s : State) : FetchCase s := by
  by_cases hpc : s.pc.toNat < 256
  · rcases hl : lookupOpcode (s.mem.read s.pc.toNat) with _ | (i | mk | mk)
    · exact .unknown hpc hl (fetch_unknown hpc hl)
    · exact .bare hpc hl (fetch_bare hpc hl)
    · by_cases h : s.pc.toNat + 1 < 256
      · exact .one h hl (fetch_one h hl)
      · exact .operandFault hpc hl (by simp only [Form.arity]; omega) (fetch_one_fault (by omega) hl)
    · by_cases h : s.pc.toNat + 2 < 256
      · exact .two h hl (fetch_two h hl)
      · exact .operandFault hpc hl (by simp only [Form.arity]; omega) (fetch_two_fault (by omega) hl)
  · exact .past (by omega) (fetch_past (by omega))

/-- Everything a step can do: a fetch fault, the skip of an unknown opcode, or the effect of the instruction fetched. -/
inductive StepCase (s t : State) : Prop
  | past (hs : s.status = .running) (h : 256 ≤ s.pc.toNat) (ht : t = raise (.memoryFault s.pc.toNat) s)
  | unknown (hs : s.status = .running) (h : s.pc.toNat < 256) (hl : lookupOpcode (s.mem.read s.pc.toNat) = none)
      (ht : t = s.advance (s.mem.read s.pc.toNat))
  | operandFault {f : Form} (hs : s.status = .running) (h : s.pc.toNat < 256)
      (hl : lookupOpcode (s.mem.read s.pc.toNat) = some f) (hn : 256 ≤ s.pc.toNat + f.arity)
      (ht : t = raise (.memoryFault 256) s)
  | bare {i : Instr} (hs : s.status = .running) (h : s.pc.toNat < 256)
      (hl : lookupOpcode (s.mem.read s.pc.toNat) = some (.bare i)) (he : Effect i s t)
  | one {mk : Byte → Instr} (hs : s.status = .running) (h : s.pc.toNat + 1 < 256)
      (hl : lookupOpcode (s.mem.read s.pc.toNat) = some (.one mk)) (he : Effect (mk (s.mem.read (s.pc.toNat + 1))) s t)
  | two {mk : Byte → Byte → Instr} (hs : s.status = .running) (h : s.pc.toNat + 2 < 256)
      (hl : lookupOpcode (s.mem.read s.pc.toNat) = some (.two mk))
      (he : Effect (mk (s.mem.read (s.pc.toNat + 1)) (s.mem.read (s.pc.toNat + 2))) s t)

/-- The inversion of `step`: cite this, then `cases`. -/
theorem step_cases {t : State} (h : step s = .next t) : StepCase s t := by
  have hs : s.status = .running := by
    by_contra hs
    obtain ⟨r, hr⟩ := step_of_not_running hs
    rw [hr] at h
    cases h
  cases fetch_cases s with
  | past hpc hf => rw [step_of_fetch_error hs hf] at h; cases h; exact .past hs hpc rfl
  | unknown hpc hl hf => rw [step_of_fetch_unknown hs hf] at h; cases h; exact .unknown hs hpc hl rfl
  | operandFault hpc hl hn hf => rw [step_of_fetch_error hs hf] at h; cases h; exact .operandFault hs hpc hl hn rfl
  | bare hpc hl hf => rw [step_of_fetch_instr hs hf] at h; exact .bare hs hpc hl (exec_effect h)
  | one hpc hl hf => rw [step_of_fetch_instr hs hf] at h; exact .one hs hpc hl (exec_effect h)
  | two hpc hl hf => rw [step_of_fetch_instr hs hf] at h; exact .two hs hpc hl (exec_effect h)

/-- A step happens to a running engine. -/
theorem running_of_step {t : State} (h : step s = .next t) : s.status = .running := by
  cases step_cases h <;> assumption

/-- A running engine always steps. -/
theorem step_exists (hs : s.status = .running) : ∃ t, step s = .next t := by
  cases fetch_cases s with
  | past _ hf => exact ⟨_, step_of_fetch_error hs hf⟩
  | unknown _ _ hf => exact ⟨_, step_of_fetch_unknown hs hf⟩
  | operandFault _ _ _ hf => exact ⟨_, step_of_fetch_error hs hf⟩
  | bare _ _ hf => rw [step_of_fetch_instr hs hf]; exact (exec_effect_exists _ s).imp fun _ h => h.1
  | one _ _ hf => rw [step_of_fetch_instr hs hf]; exact (exec_effect_exists _ s).imp fun _ h => h.1
  | two _ _ hf => rw [step_of_fetch_instr hs hf]; exact (exec_effect_exists _ s).imp fun _ h => h.1

end Step

/-! ### The bytes of the instruction that runs -/

/-- The instruction's encoding stands at PC, within the 256 cells. -/
structure CodeAt (s : State) (i : Instr) : Prop where
  fits : s.pc.toNat + (encode i).length ≤ 256
  bytes : encode i = (List.range (encode i).length).map (fun k => s.mem.read (s.pc.toNat + k))

theorem codeAt_bare {s : State} {i : Instr} (h : s.pc.toNat < 256)
    (hl : lookupOpcode (s.mem.read s.pc.toNat) = some (.bare i)) : CodeAt s i := by
  have he := encode_bare hl
  exact ⟨by simp only [he, List.length_cons, List.length_nil]; omega, by simp [he]⟩

theorem codeAt_one {s : State} {mk : Byte → Instr} (h : s.pc.toNat + 1 < 256)
    (hl : lookupOpcode (s.mem.read s.pc.toNat) = some (.one mk)) : CodeAt s (mk (s.mem.read (s.pc.toNat + 1))) := by
  have he := encode_one hl (s.mem.read (s.pc.toNat + 1))
  exact ⟨by simp only [he, List.length_cons, List.length_nil]; omega, by simp [he, List.range_succ]⟩

theorem codeAt_two {s : State} {mk : Byte → Byte → Instr} (h : s.pc.toNat + 2 < 256)
    (hl : lookupOpcode (s.mem.read s.pc.toNat) = some (.two mk)) :
    CodeAt s (mk (s.mem.read (s.pc.toNat + 1)) (s.mem.read (s.pc.toNat + 2))) := by
  have he := encode_two hl (s.mem.read (s.pc.toNat + 1)) (s.mem.read (s.pc.toNat + 2))
  exact ⟨by simp only [he, List.length_cons, List.length_nil]; omega, by simp [he, List.range_succ]⟩

/-- The instruction that fetch delivers is the one whose bytes stand at PC. -/
theorem codeAt_of_fetch {s : State} {i : Instr} (h : fetch s = .ok (.instr i)) : CodeAt s i := by
  cases fetch_cases s with
  | past _ hf => rw [hf] at h; cases h
  | unknown _ _ hf => rw [hf] at h; cases h
  | operandFault _ _ _ hf => rw [hf] at h; cases h
  | bare hpc hl hf => rw [hf] at h; cases h; exact codeAt_bare hpc hl
  | one hpc hl hf => rw [hf] at h; cases h; exact codeAt_one hpc hl
  | two hpc hl hf => rw [hf] at h; cases h; exact codeAt_two hpc hl

/-- `step_cases` with the three forms of instruction taken together: the bytes at PC are the instruction's. -/
inductive StepSummary (s t : State) : Prop
  | past (h : 256 ≤ s.pc.toNat) (ht : t = raise (.memoryFault s.pc.toNat) s)
  | unknown (h : s.pc.toNat < 256) (hl : lookupOpcode (s.mem.read s.pc.toNat) = none)
      (ht : t = s.advance (s.mem.read s.pc.toNat))
  | operandFault {f : Form} (h : s.pc.toNat < 256) (hl : lookupOpcode (s.mem.read s.pc.toNat) = some f)
      (hn : 256 ≤ s.pc.toNat + f.arity) (ht : t = raise (.memoryFault 256) s)
  | instr {i : Instr} (hc : CodeAt s i) (he : Effect i s t)

theorem step_summary {s t : State} (h : step s = .next t) : StepSummary s t := by
  cases step_cases h with
  | past _ h ht => exact .past h ht
  | unknown _ h hl ht => exact .unknown h hl ht
  | operandFault _ h hl hn ht => exact .operandFault h hl hn ht
  | bare _ h hl he => exact .instr (codeAt_bare h hl) he
  | one _ h hl he => exact .instr (codeAt_one h hl) he
  | two _ h hl he => exact .instr (codeAt_two h hl) he

/-- The bytes at PC decide the step: the engine runs the instruction they encode. -/
theorem step_of_codeAt {s : State} {i : Instr} (hs : s.status = .running) (hc : CodeAt s i) : step s = exec i s := by
  obtain ⟨hfits, hb⟩ := hc
  cases i <;>
    simp only [encode, List.length_cons, List.length_nil, List.range_succ, List.range_zero, List.nil_append,
      List.cons_append, List.map_cons, List.map_nil, List.cons.injEq, and_true, Nat.add_zero] at hb hfits <;>
    apply step_of_fetch_instr hs
  case hlt => exact fetch_bare (by omega) (by rw [← hb]; rfl)
  case ret => exact fetch_bare (by omega) (by rw [← hb]; rfl)
  case prn | not | push | pop | call | jmp | jeq | jne =>
    rw [hb.2]; exact fetch_one (by omega) (by rw [← hb.1]; rfl)
  all_goals
    obtain ⟨h₀, h₁, h₂⟩ := hb
    rw [h₁, h₂]
    exact fetch_two (by omega) (by rw [← h₀]; rfl)

end Sys2Proof.Machine
end

