-- ==== Sys2Proof/Tests/Slice0.lean ====
section
/-! SUPPORT. The model's own tests. Expected results are the vectors of spec/95_test_vectors.md (V…, S…) or the words of R74
written out bit by bit; none was taken from a run of the model. After them, one witness for the hypotheses of each
obligation. -/

namespace Sys2Proof.Tests

open Sys2Proof Sys2Proof.Machine Sys2Proof.Machine.Claim

/-! ## Small states -/

/-- The reset state with PC `pc`, the bytes from there on, and some registers changed. -/
def here (pc : PcWord) (bytes : List Byte) (regs : List (Reg × Byte) := []) : State :=
  { State.reset with
    pc := pc
    mem := State.reset.mem.load pc.toNat bytes
    regs := regs.foldl (fun v p => v.set p.1 p.2) State.reset.regs }

def flagged (s : State) (e l g : Bool) : State := { s with flags := ⟨e, l, g⟩ }

/-- A state with one cell more. -/
def withCell (s : State) (a : Nat) (v : Byte) : State := { s with mem := s.mem.write a v }

/-- What `f` reads off the state after one step. -/
def after {α : Type} (s : State) (f : State → α) : Option α :=
  match step s with
  | .next t => some (f t)
  | .fault _ => none
  | .refused _ => none

/-- The instruction the decoder reads and how many bytes it leaves. -/
def decoded (bs : List Byte) : Option (Instr × Nat) :=
  match decode bs with
  | .ok (i, rest) => some (i, rest.length)
  | .error _ => none

/-! ## WellFormed (R73, R83) -/

theorem test_wellFormed_refuses_first_operand :
    ([.ldi 8 0, .prn 8, .add 8 0, .mul 8 0, .mod 8 0, .and 8 0, .or 8 0, .xor 8 0, .not 8] ++
     [.shl 8 0, .shr 8 0, .cmp 8 0, .push 8, .pop 8, .call 8, .jmp 8, .jeq 8, .jne 8] : List Instr).all
      (fun i => !i.wellFormed) = true := by decide

theorem test_wellFormed_refuses_second_operand :
    ([.add 0 8, .mul 0 8, .mod 0 8, .and 0 8, .or 0 8, .xor 0 8, .shl 0 8, .shr 0 8, .cmp 0 255] : List Instr).all
      (fun i => !i.wellFormed) = true := by decide

/-- R73: an immediate is not a register index. -/
theorem test_wellFormed_accepts : ([.hlt, .ret, .ldi 7 200, .add 7 7, .jne 0] : List Instr).all (·.wellFormed) = true := by
  decide

/-! ## Decoding: R74's bits, one word for each constructor -/

theorem test_decode_hlt : decoded [0b00000001] = some (.hlt, 0) := by decide
theorem test_decode_ldi : decoded [0b10000010, 0b00000011, 0b11001000] = some (.ldi 3 200, 0) := by decide
theorem test_decode_prn : decoded [0b01000111, 0b00000101] = some (.prn 5, 0) := by decide
theorem test_decode_add : decoded [0b10100000, 0b00000001, 0b00000010] = some (.add 1 2, 0) := by decide
theorem test_decode_mul : decoded [0b10100010, 0b00000001, 0b00000010] = some (.mul 1 2, 0) := by decide
theorem test_decode_mod : decoded [0b10100100, 0b00000001, 0b00000010] = some (.mod 1 2, 0) := by decide
theorem test_decode_and : decoded [0b10101000, 0b00000001, 0b00000010] = some (.and 1 2, 0) := by decide
theorem test_decode_or : decoded [0b10101010, 0b00000001, 0b00000010] = some (.or 1 2, 0) := by decide
theorem test_decode_xor : decoded [0b10101011, 0b00000001, 0b00000010] = some (.xor 1 2, 0) := by decide
theorem test_decode_not : decoded [0b01101001, 0b00000110] = some (.not 6, 0) := by decide
theorem test_decode_shl : decoded [0b10101100, 0b00000001, 0b00000010] = some (.shl 1 2, 0) := by decide
theorem test_decode_shr : decoded [0b10101101, 0b00000001, 0b00000010] = some (.shr 1 2, 0) := by decide
theorem test_decode_cmp : decoded [0b10100111, 0b00000001, 0b00000010] = some (.cmp 1 2, 0) := by decide
theorem test_decode_push : decoded [0b01000101, 0b00000111] = some (.push 7, 0) := by decide
theorem test_decode_pop : decoded [0b01000110, 0b00000111] = some (.pop 7, 0) := by decide
theorem test_decode_call : decoded [0b01010000, 0b00000100] = some (.call 4, 0) := by decide
theorem test_decode_ret : decoded [0b00010001, 0b11111111] = some (.ret, 1) := by decide
theorem test_decode_jmp : decoded [0b01010100, 0b00000100] = some (.jmp 4, 0) := by decide
theorem test_decode_jeq : decoded [0b01010101, 0b00000100] = some (.jeq 4, 0) := by decide
theorem test_decode_jne : decoded [0b01010110, 0b00000100] = some (.jne 4, 0) := by decide

/-- R77: neighbours of defined opcodes are no instructions. -/
theorem test_decode_rejects_unknown :
    ([[0x00], [0xA1, 0, 1], [0x57, 2], [0xC5, 0, 0, 0], [0x80, 0, 0], [0x12]] : List (List Byte)).all
      (fun bs => (decoded bs).isNone) = true := by decide

theorem test_decode_rejects_short : ([[], [0x82], [0x82, 0], [0x47]] : List (List Byte)).all (fun bs => (decoded bs).isNone) = true := by
  decide

/-- The table's numbering: the first byte is the least significant. -/
theorem test_decodeTableWord :
    decodeTableWord 24 0xC80382 = some (.ldi 3 200) ∧ decodeTableWord 8 0x82 = some (.ldi 0 0) ∧
    decodeTableWord 8 0x01 = some .hlt ∧ decodeTableWord 8 0x00 = none := by decide

theorem test_withFetchWord :
    after (State.reset.withFetchWord 24 0xC80382) (·.reg 3) = some 200 ∧
    after ((here 255 []).withFetchWord 16 0x0254) (·.pc) = some 0 ∧
    after ({ here 9 [] with status := .halted }.withFetchWord 24 0xC80382) (·.pc) = some 12 := by decide

/-! ## The step and its faults -/

/-- V2: would-be subtract, skipped. -/
theorem test_unknown_skips_three : after (here 0x10 [0xA1, 0, 1] [(0, 9), (1, 4)]) (fun t => (t.pc, t.reg 0)) = some (0x13, 9) := by
  decide

/-- V4, V7. -/
theorem test_unknown_skips_four_and_past_top :
    after (here 0x10 [0xC5]) (·.pc) = some 0x14 ∧ after (here 0xFF [0x80]) (fun t => (t.pc, t.status)) = some (0x102, .running) := by
  decide

/-- V5. -/
theorem test_fetch_past_top : after (here 0x100 []) (fun t => (t.status, t.pc)) = some (.faulted (.memoryFault 256), 0x100) := by
  decide

/-- V8, V9. -/
theorem test_operand_past_top :
    after (here 0xFE [0x82, 0]) (fun t => (t.status, t.pc)) = some (.faulted (.memoryFault 256), 0xFE) ∧
    after (here 0xFF [0x82]) (fun t => (t.status, t.pc)) = some (.faulted (.memoryFault 256), 0xFF) := by decide

/-- V10, V11, V12, V5A. -/
theorem test_register_index :
    after (here 0 [0x47, 9]) (fun t => (t.status, t.out)) = some (.faulted (.registerIndexFault 9), []) ∧
    after (here 0 [0xA0, 8, 9]) (·.status) = some (.faulted (.registerIndexFault 8)) ∧
    after (here 0 [0xA0, 0, 0xC8]) (·.status) = some (.faulted (.registerIndexFault 200)) ∧
    after (here 0 [0x55, 8]) (·.status) = some (.faulted (.registerIndexFault 8)) := by decide

/-- V15. -/
theorem test_halted_has_no_step : after { here 0 [0x82, 0, 8] with status := .halted } (·.pc) = none := by decide

/-! ## The instructions -/

/-- V6. -/
theorem test_hlt : after (here 0xFF [0x01]) (fun t => (t.status, t.pc)) = some (.halted, 0x100) := by decide
/-- V21. -/
theorem test_ldi_sp : after (here 0 [0x82, 7, 0x80]) (fun t => (t.reg 7, t.pc)) = some (0x80, 3) := by decide
/-- V22. -/
theorem test_prn : after (here 0 [0x47, 2] [(2, 0xFF)]) (fun t => (t.out, t.pc)) = some ([.print 255], 2) := by decide
/-- V30. -/
theorem test_add : after (here 0 [0xA0, 0, 1] [(0, 0xC8), (1, 0x64)]) (fun t => (t.reg 0, t.reg 1, t.pc)) = some (0x2C, 0x64, 3) := by
  decide
/-- V32. -/
theorem test_add_same : after (here 0 [0xA0, 2, 2] [(2, 0x90)]) (·.reg 2) = some 0x20 := by decide
/-- V34. -/
theorem test_mul : after (here 0 [0xA2, 0, 1] [(0, 0xFF), (1, 0xFF)]) (·.reg 0) = some 0x01 := by decide
/-- V39. -/
theorem test_mod : after (here 0 [0xA4, 0, 1] [(0, 5), (1, 9)]) (fun t => (t.reg 0, t.status)) = some (5, .running) := by decide
/-- V37. -/
theorem test_mod_zero :
    after (flagged (here 6 [0xA4, 0, 1] [(0, 0x0A)]) false false true) (fun t => (t.status, t.reg 0, t.pc, t.flags.g, t.out)) =
      some (.halted, 0x0A, 9, true, [.invalidDivisor]) := by decide
/-- V3A. -/
theorem test_and : after (here 0 [0xA8, 0, 1] [(0, 0xCC), (1, 0xAA)]) (·.reg 0) = some 0x88 := by decide
/-- V3B. -/
theorem test_or : after (here 0 [0xAA, 0, 1] [(0, 0xCC), (1, 0xAA)]) (·.reg 0) = some 0xEE := by decide
/-- V3C. -/
theorem test_xor : after (here 0 [0xAB, 0, 1] [(0, 0xCC), (1, 0xAA)]) (·.reg 0) = some 0x66 := by decide
/-- V3E. -/
theorem test_not : after (here 0 [0x69, 2] [(2, 0x0F)]) (fun t => (t.reg 2, t.pc)) = some (0xF0, 2) := by decide
/-- V3G. -/
theorem test_shl : after (here 0 [0xAC, 0, 1] [(0, 0x17), (1, 2)]) (·.reg 0) = some 0x5C := by decide
/-- V3I. -/
theorem test_shl_eight : after (here 0 [0xAC, 0, 1] [(0, 0xFF), (1, 8)]) (·.reg 0) = some 0 := by decide
/-- V3N. -/
theorem test_shr : after (here 0 [0xAD, 0, 1] [(0, 0x80), (1, 1)]) (·.reg 0) = some 0x40 := by decide
/-- V3O. -/
theorem test_shr_eight : after (here 0 [0xAD, 0, 1] [(0, 0xFF), (1, 8)]) (·.reg 0) = some 0 := by decide
/-- V3R. -/
theorem test_cmp_less :
    after (flagged (here 0 [0xA7, 0, 1] [(1, 0xFF)]) true false false) (·.flags) = some ⟨false, true, false⟩ := by decide
/-- V3S: unsigned. -/
theorem test_cmp_greater :
    after (flagged (here 0 [0xA7, 0, 1] [(0, 0x80), (1, 0x7F)]) false true false) (·.flags) = some ⟨false, false, true⟩ := by
  decide
/-- V42. -/
theorem test_push_wraps :
    after (here 0x20 [0x45, 0] [(7, 0), (0, 0x99)]) (fun t => (t.reg 7, t.mem.read 0xFF, t.pc)) = some (0xFF, 0x99, 0x22) := by decide
/-- V43, first step. -/
theorem test_push_sp : after (here 0 [0x45, 7]) (fun t => (t.reg 7, t.mem.read 0xF3)) = some (0xF3, 0xF3) := by decide
/-- V44. -/
theorem test_pop_wraps :
    after (withCell (here 0 [0x46, 0] [(7, 0xFF)]) 0xFF 0x77) (fun t => (t.reg 0, t.reg 7)) = some (0x77, 0) := by decide
/-- V45. -/
theorem test_pop_sp : after (withCell (here 0 [0x46, 7] [(7, 0xF0)]) 0xF0 0x20) (·.reg 7) = some 0x21 := by decide
/-- V52. -/
theorem test_call_link :
    after (here 6 [0x50, 6] [(6, 0x40)]) (fun t => (t.reg 6, t.reg 7, t.mem.read 0xF3, t.pc)) = some (8, 0xF3, 8, 8) := by decide
/-- V54: nothing written. -/
theorem test_call_return_address :
    after (here 0xFE [0x50, 0] [(0, 0x10)]) (fun t => (t.status, t.reg 6, t.reg 7, t.mem.read 0xF3, t.pc)) =
      some (.faulted (.memoryFault 256), 0, 0xF4, 0, 0xFE) := by decide
/-- V51. -/
theorem test_ret :
    after (withCell (here 0x0F [0x11] [(7, 0xF3), (6, 0x55)]) 0xF3 8) (fun t => (t.pc, t.reg 7, t.reg 6)) = some (8, 0xF4, 0x55) := by
  decide
/-- V55. -/
theorem test_jmp : after (here 0 [0x54, 2] [(2, 0x20)]) (·.pc) = some 0x20 := by decide
/-- V56. -/
theorem test_jeq_taken :
    after (flagged (here 0x18 [0x55, 2] [(2, 0x30)]) true false false) (fun t => (t.pc, t.flags.e)) = some (0x30, true) := by decide
/-- V56b. -/
theorem test_jeq_not_taken : after (flagged (here 0x18 [0x55, 2] [(2, 0x30)]) false false true) (·.pc) = some 0x1A := by decide
/-- V57. -/
theorem test_jne_taken : after (here 0 [0x56, 2] [(2, 0x30)]) (·.pc) = some 0x30 := by decide
/-- V57b. -/
theorem test_jne_not_taken : after (flagged (here 0x18 [0x56, 2] [(2, 0x30)]) true false false) (·.pc) = some 0x1A := by decide

/-! ## Witnesses: states and operands that meet an obligation's hypotheses

Obligations without hypotheses have none here. Clauses over PC have one at each end of their range. -/

/-- The start state with the one byte `ir` at address `p`, PC there. -/
def opcodeAt (p : PcWord) (ir : Byte) : State := { State.reset with pc := p, mem := [(p.toNat, ir)] }

/-- The hypotheses of a rule for one instruction, whose opcode is `ir`: register 0 and register 7 are named by bytes, 8 and 255
name none, and the opcode stands at addresses 255, 254 and 253. -/
def ruleHypotheses (ir : Byte) : Prop :=
  names 0 0 ∧ names 7 7 ∧ 7 < (8 : Byte).toNat ∧ 7 < (255 : Byte).toNat ∧
  (atOpcode (opcodeAt 255 ir) ir ∧ (opcodeAt 255 ir).pc.toNat = 255) ∧
  (atOpcode (opcodeAt 254 ir) ir ∧ (opcodeAt 254 ir).pc.toNat = 254) ∧
  (atOpcode (opcodeAt 253 ir) ir ∧ (opcodeAt 253 ir).pc.toNat ≤ 253)

theorem atOpcode_opcodeAt (p : PcWord) (ir : Byte) (h : p.toNat ≤ 255) : atOpcode (opcodeAt p ir) ir :=
  ⟨rfl, h, if_pos rfl⟩

theorem ruleHypotheses_of (ir : Byte) : ruleHypotheses ir :=
  ⟨rfl, rfl, by decide, by decide, ⟨atOpcode_opcodeAt 255 ir (by decide), rfl⟩, ⟨atOpcode_opcodeAt 254 ir (by decide), rfl⟩,
    ⟨atOpcode_opcodeAt 253 ir (by decide), Nat.le_refl 253⟩⟩

/-- The longest image fits (R222). -/
theorem longest_fits : imageFits (List.replicate 256 0x01) = true :=
  (imageFits_iff _).mpr (by rw [List.length_replicate]; decide)

theorem boots {image : List Byte} (h : imageFits image = true) : ∃ s, State.boot image = some s := ⟨_, if_pos h⟩

theorem witness_OpcodeMapAsTabulated :
    encode .ret = [0x11] ∧ encode (.not 7) = 0x69 :: [7] ∧ encode (.ldi 0 255) = 0x82 :: [0, 255] := ⟨rfl, rfl, rfl⟩

theorem witness_StepRunsDecodedInstruction :
    let s := here 253 [0x82, 7, 255]
    s.status = .running ∧ s.pc.toNat + 3 ≤ 256 ∧ decode ((List.range 3).map (operandAt s)) = .ok (.ldi 7 255, []) :=
  ⟨rfl, by decide, rfl⟩

theorem witness_StepsExactlyWhileRunning :
    State.reset.status = .running ∧ ({ State.reset with status := .halted } : State).status ≠ .running ∧
    (raise (.memoryFault 256) State.reset).status ≠ .running := ⟨rfl, by decide, by decide⟩

theorem witness_FetchPastTopFaults :
    (here 256 []).status = .running ∧ 256 ≤ (here 256 []).pc.toNat ∧
    (here 511 []).status = .running ∧ 256 ≤ (here 511 []).pc.toNat := ⟨rfl, by decide, rfl, by decide⟩

theorem witness_OperandFetchIsLazy :
    (atOpcode (opcodeAt 255 0x82) 0x82 ∧ 0x82 ∈ definedOpcodes ∧ 1 ≤ 0x82 / 64 ∧ 255 < (opcodeAt 255 0x82).pc.toNat + 1) ∧
    (atOpcode (opcodeAt 254 0x82) 0x82 ∧ (opcodeAt 254 0x82).pc.toNat + 1 ≤ 255 ∧ 255 < (opcodeAt 254 0x82).pc.toNat + 2) ∧
    (atOpcode (opcodeAt 253 0x82) 0x82 ∧ (opcodeAt 253 0x82).pc.toNat + 0x82 / 64 ≤ 255) ∧
    (atOpcode (opcodeAt 255 0x80) 0x80 ∧ 0x80 ∉ definedOpcodes) :=
  ⟨⟨⟨rfl, by decide, rfl⟩, by decide, by decide, by decide⟩, ⟨⟨rfl, by decide, rfl⟩, by decide, by decide⟩,
    ⟨⟨rfl, by decide, rfl⟩, by decide⟩, ⟨⟨rfl, by decide, rfl⟩, by decide⟩⟩

theorem witness_UnknownOpcodeIsSkipped :
    ∀ ir ∈ ([0x00, 0x80, 0xC0, 0xFF] : List Byte), atOpcode (opcodeAt 255 ir) ir ∧ ir.toNat ∉ definedOpcodes := by
  have unknown : ∀ ir ∈ ([0x00, 0x80, 0xC0, 0xFF] : List Byte), ir.toNat ∉ definedOpcodes := by decide
  exact fun ir h => ⟨atOpcode_opcodeAt 255 ir (by decide), unknown ir h⟩

theorem witness_RegisterIndexValidated :
    (Instr.add 8 9).regOperands.find? (fun r => decide (7 < r.toNat)) = some 8 ∧
    (Instr.add 7 255).regOperands.find? (fun r => decide (7 < r.toNat)) = some 255 ∧
    (Instr.ldi 7 255).wellFormed = true ∧
    ∃ t, exec (.ldi 7 255) (raise (.registerIndexFault 9) State.reset) = .next t ∧ t.status = .faulted (.registerIndexFault 9) :=
  ⟨by decide, by decide, by decide, _, rfl, rfl⟩

/-- One step that does not fault, from a state with opcode `ir` at PC. -/
def runsOn (s : State) (ir : Byte) : Prop :=
  atOpcode s ir ∧ ∃ t, step s = .next t ∧ ∀ f, t.status ≠ .faulted f

theorem runsOn_of {s : State} {ir : Byte} (h : atOpcode s ir) {t : State} (hs : step s = .next t) (ht : t.status = .running) :
    runsOn s ir := ⟨h, t, hs, fun f hf => by rw [ht] at hf; cases hf⟩

theorem witness_PcIsWrittenInTheseWays :
    runsOn (here 253 [0x82, 0, 1]) 0x82 ∧ 0x82 ∉ controlOpcodes ∧ runsOn (here 253 [0x50, 1]) 0x50 ∧
    runsOn (here 254 [0x54, 7]) 0x54 ∧ runsOn (here 255 [0x11]) 0x11 ∧
    (runsOn (flagged (here 254 [0x55, 0]) true false false) 0x55 ∧ runsOn (here 254 [0x55, 0]) 0x55) ∧
    (runsOn (here 254 [0x56, 0]) 0x56 ∧ runsOn (flagged (here 254 [0x56, 0]) true false false) 0x56) ∧
    (∃ t, step (here 259 []) = .next t ∧ t.status = .faulted (.memoryFault 259)) :=
  ⟨runsOn_of ⟨rfl, by decide, rfl⟩ rfl rfl, by decide, runsOn_of ⟨rfl, by decide, rfl⟩ rfl rfl,
    runsOn_of ⟨rfl, by decide, rfl⟩ rfl rfl, runsOn_of ⟨rfl, by decide, rfl⟩ rfl rfl,
    ⟨runsOn_of ⟨rfl, by decide, rfl⟩ rfl rfl, runsOn_of ⟨rfl, by decide, rfl⟩ rfl rfl⟩,
    ⟨runsOn_of ⟨rfl, by decide, rfl⟩ rfl rfl, runsOn_of ⟨rfl, by decide, rfl⟩ rfl rfl⟩, _, rfl, rfl⟩

theorem witness_FetchSeesStores :
    (∃ t, memWrite (here 255 [0x01]) 255 0x11 = .ok t ∧ 255 + 1 + 0 ≤ 256 ∧ decode [0x11] = .ok (.ret, [])) ∧
    (∃ t, memWrite (here 2 [0x01, 5]) 2 0x47 = .ok t ∧
      decode (0x47 :: (List.range 1).map (fun k => operandAt (here 2 [0x01, 5]) (k + 1))) = .ok (.prn 5, [])) :=
  ⟨⟨_, rfl, by decide, rfl⟩, _, rfl, rfl⟩

theorem witness_StepMatchesPseudocode : State.reset.status = .running ∧ (here 511 []).status = .running := ⟨rfl, rfl⟩

theorem witness_FaultEntryIsPreciseAndTerminal :
    ∃ t, step (here 256 []) = .next t ∧ t.status = .faulted (.memoryFault 256) := ⟨_, rfl, rfl⟩

theorem witness_FaultListIsComplete :
    (∃ t, (here 259 []).pc.toNat ≤ 259 ∧ step (here 259 []) = .next t ∧ t.status = .faulted (.memoryFault 259)) ∧
    (∃ t, step (here 254 [0x82]) = .next t ∧ t.status = .faulted (.memoryFault 256)) ∧
    (∃ t, step (here 254 [0x50, 0]) = .next t ∧ t.status = .faulted (.memoryFault 256)) ∧
    (∃ t, step (here 0 [0xA0, 0, 8]) = .next t ∧ t.status = .faulted (.registerIndexFault 8)) ∧
    (here 253 [0x82, 255, 255]).status = .running ∧ atOpcode (here 253 [0x82, 255, 255]) 0x82 ∧
    255 ∈ regops 0x82 (operandAt (here 253 [0x82, 255, 255]) 1).toNat (operandAt (here 253 [0x82, 255, 255]) 2).toNat :=
  ⟨⟨_, by decide, rfl, rfl⟩, ⟨_, rfl, rfl⟩, ⟨_, rfl, rfl⟩, ⟨_, rfl, rfl⟩, rfl, ⟨rfl, by decide, rfl⟩, by decide⟩

/-- One running state for each branch of the chain, in its order, where later conditions hold too if they can. -/
theorem witness_FaultPriority :
    after (here 256 [0x50, 8]) (·.status) = some (.faulted (.memoryFault 256)) ∧
    after (here 255 [0xA0]) (·.status) = some (.faulted (.memoryFault 256)) ∧
    after (here 254 [0xA0, 8]) (·.status) = some (.faulted (.memoryFault 256)) ∧
    after (here 253 [0xA0, 8, 9]) (·.status) = some (.faulted (.registerIndexFault 8)) ∧
    after (here 253 [0xA0, 7, 9]) (·.status) = some (.faulted (.registerIndexFault 9)) ∧
    after (here 254 [0x50, 8]) (·.status) = some (.faulted (.registerIndexFault 8)) ∧
    after (here 254 [0x50, 7]) (·.status) = some (.faulted (.memoryFault 256)) ∧
    after (here 253 [0x50, 7]) (·.status) = some .running := by decide

theorem witness_StatusTransitions :
    (∃ t, step (here 255 [0x01]) = .next t ∧ t.status = .halted) ∧
    (∃ t, step (here 253 [0xA4, 0, 1]) = .next t ∧ t.status = .halted) ∧
    (∃ t, step (here 253 [0xA4, 0, 7]) = .next t ∧ t.status = .running) ∧
    (∃ t, step (here 254 [0xA4, 0]) = .next t ∧ t.status = .faulted (.memoryFault 256)) ∧
    ({ State.reset with status := .halted } : State).status ≠ .running ∧
    ∃ t, exec (.prn 0) State.reset = .next t :=
  ⟨⟨_, rfl, rfl⟩, ⟨_, rfl, rfl⟩, ⟨_, rfl, rfl⟩, ⟨_, rfl, rfl⟩, by decide, _, rfl⟩

theorem witness_OnlyCompareWritesFlags :
    (∃ t, step (here 253 [0xA7, 0, 0]) = .next t ∧ t.flags ≠ (here 253 [0xA7, 0, 0]).flags) ∧ names 0 0 ∧ names 7 7 :=
  ⟨⟨_, rfl, by decide⟩, rfl, rfl⟩

theorem witness_LessAndGreaterAreUnread :
    (∃ t, step (here 254 [0x55, 0]) = .next t) ∧ ∃ t, step (here 253 [0xA7, 0, 1]) = .next t := ⟨⟨_, rfl⟩, _, rfl⟩

theorem witness_RegistersReadAndWritten :
    (∃ t, exec (.mod 0 1) State.reset = .next t ∧ ¬writesReg (.mod 0 1) State.reset 0) ∧
    (∃ t, exec (.jeq 3) State.reset = .next t ∧ (Instr.jeq 3).wellFormed = true ∧ ¬readsReg (.jeq 3) State.reset 3) ∧
    (∃ t, exec (.ldi 7 5) State.reset = .next t ∧ (Instr.ldi 7 5).wellFormed = true ∧ ¬readsReg (.ldi 7 5) State.reset 7 ∧
      writesReg (.ldi 7 5) State.reset 7) ∧
    (∃ t, atOpcode (opcodeAt 255 0xFF) 0xFF ∧ 0xFF ∉ definedOpcodes ∧ step (opcodeAt 255 0xFF) = .next t) :=
  ⟨⟨_, rfl, fun h => h.2 1 rfl (by decide)⟩, ⟨_, rfl, by decide, fun h => by cases h.2⟩, ⟨_, rfl, by decide, id, rfl⟩,
    ⟨_, ⟨rfl, by decide, rfl⟩, by decide, rfl⟩⟩

theorem witness_OnlyPushAndCallWriteMemory :
    (∃ t, step (here 0x20 [0x45, 0] [(7, 0), (0, 9)]) = .next t ∧
      t.mem.read 255 ≠ (here 0x20 [0x45, 0] [(7, 0), (0, 9)]).mem.read 255) ∧
    (∃ t, step (here 253 [0x50, 1]) = .next t ∧ t.mem.read 0xF3 ≠ (here 253 [0x50, 1]).mem.read 0xF3) :=
  ⟨⟨_, rfl, by decide⟩, _, rfl, by decide⟩

theorem witness_OutputGrowsAndIsUnread :
    (∃ t, step (here 254 [0x47, 7]) = .next t ∧ t.out = [.print 0xF4]) ∧
    (∃ t, step (here 253 [0xA4, 7, 0]) = .next t ∧ t.out = [.invalidDivisor]) ∧
    (∃ t, step (here 255 [0x11]) = .next t ∧ t.out = []) := ⟨⟨_, rfl, by decide⟩, ⟨_, rfl, by decide⟩, _, rfl, by decide⟩

theorem witness_StepKeepsInvariant : (here 255 [0xFF]).Inv ∧ ∃ t, step (here 255 [0xFF]) = .next t ∧ t.pc = 259 :=
  ⟨⟨by decide, by decide, by unfold Flags.exclusive; decide, fun _ h => nomatch h⟩, _, rfl, by decide⟩

theorem witness_LaunchMeetsInvariant :
    (⟨false, false, true⟩ : Flags).exclusive ∧
    (∃ s, State.launch [0x01] (Vector.replicate 8 0xFF) ⟨false, false, true⟩ = some s) ∧
    (∃ s, State.launch (List.replicate 256 0x01) (Vector.replicate 8 0) ⟨false, false, false⟩ = some s) :=
  ⟨by unfold Flags.exclusive; decide, ⟨_, if_pos rfl⟩, _, if_pos longest_fits⟩

theorem witness_ResetEntryIsZero : ∃ s, State.boot [0x01] = some s ∧ ([0x01] : List Byte).head? = some 0x01 := ⟨_, rfl, rfl⟩

theorem witness_ResetValuesAsTabulated :
    (0 : Reg) ≠ 7 ∧ (6 : Reg) ≠ 7 ∧ (∃ s, State.boot [0x82, 0x00, 0x08] = some s) ∧
    ([0x82, 0x00, 0x08] : List Byte)[2]? = some 0x08 ∧ ([0x82, 0x00, 0x08] : List Byte)[3]? = none :=
  ⟨by decide, by decide, boots rfl, rfl, rfl⟩

theorem witness_BootPlacesImage :
    ((∃ s, State.boot [0x00] = some s) ∧ 0 < ([0x00] : List Byte).length ∧ ([0x00] : List Byte).length ≤ 1) ∧
    (∃ s, State.boot (List.replicate 256 0x01) = some s) ∧ 255 < (List.replicate 256 (0x01 : Byte)).length :=
  ⟨⟨boots rfl, by decide, by decide⟩, boots longest_fits, by rw [List.length_replicate]; decide⟩

theorem witness_MemoryPrimitives :
    memRead (withCell State.reset 255 7) 255 = .ok 7 ∧ memRead State.reset 256 = .error (.memoryFault 256) ∧
    (∃ t, memWrite State.reset 255 7 = .ok t) ∧ memWrite State.reset 256 7 = .error (.memoryFault 256) :=
  ⟨rfl, rfl, ⟨_, rfl⟩, rfl⟩

theorem witness_CanonicalMemoriesAreEqual :
    Memory.wf [(0, 1), (255, 2)] = true ∧ Memory.wf ((State.reset.mem.write 255 2).write 0 1) = true ∧
    ∀ a, Memory.read [(0, 1), (255, 2)] a = ((State.reset.mem.write 255 2).write 0 1).read a :=
  ⟨by decide, by decide, fun _ => rfl⟩

theorem witness_FreeRunIsRepeatedStep :
    (∃ t, Host.Core.run core 1 (here 255 [0x01]) = .next t) ∧ (freeRun 1 (here 255 [0x01])).status ≠ .running ∧
    (freeRun 1 (here 0 [0x54, 0])).status = .running := ⟨⟨_, rfl⟩, by decide, by decide⟩

theorem witness_HltRule : ruleHypotheses 0x01 ∧ State.reset.pc.toNat ≤ 255 := ⟨ruleHypotheses_of _, by decide⟩
theorem witness_LdiRule : ruleHypotheses 0x82 := ruleHypotheses_of _
theorem witness_PrnRule : ruleHypotheses 0x47 := ruleHypotheses_of _
theorem witness_AddMulRules : ruleHypotheses 0xA0 ∧ ruleHypotheses 0xA2 := ⟨ruleHypotheses_of _, ruleHypotheses_of _⟩
theorem witness_ModRule : ruleHypotheses 0xA4 ∧ State.reset.reg 0 = 0 ∧ State.reset.reg 7 ≠ 0 :=
  ⟨ruleHypotheses_of _, by decide, by decide⟩
theorem witness_AndOrXorRules : ruleHypotheses 0xA8 ∧ ruleHypotheses 0xAA ∧ ruleHypotheses 0xAB :=
  ⟨ruleHypotheses_of _, ruleHypotheses_of _, ruleHypotheses_of _⟩
theorem witness_NotRule : ruleHypotheses 0x69 ∧ names 7 7 ∧ ∃ u, exec (.not 7) State.reset = .next u :=
  ⟨ruleHypotheses_of _, rfl, _, rfl⟩
theorem witness_ShiftRules :
    ruleHypotheses 0xAC ∧ ruleHypotheses 0xAD ∧ 8 ≤ ((here 0 [] [(1, 8)]).reg 1).toNat ∧ 8 ≤ ((here 0 [] [(1, 255)]).reg 1).toNat :=
  ⟨ruleHypotheses_of _, ruleHypotheses_of _, by decide, by decide⟩
theorem witness_CmpRule :
    ruleHypotheses 0xA7 ∧ (State.reset.reg 0).toNat = (State.reset.reg 1).toNat ∧
    (State.reset.reg 0).toNat < (State.reset.reg 7).toNat := ⟨ruleHypotheses_of _, by decide, by decide⟩
theorem witness_PushRule : ruleHypotheses 0x45 := ruleHypotheses_of _
theorem witness_PopRule : ruleHypotheses 0x46 ∧ (6 : Reg) ≠ 7 := ⟨ruleHypotheses_of _, by decide⟩
theorem witness_CallRule :
    ruleHypotheses 0x50 ∧ (opcodeAt 253 0x50).pc.toNat + 2 ≤ 255 ∧ 255 < (opcodeAt 254 0x50).pc.toNat + 2 ∧ names 6 6 :=
  ⟨ruleHypotheses_of _, by decide, by decide, rfl⟩
theorem witness_RetRule : ruleHypotheses 0x11 := ruleHypotheses_of _
theorem witness_JmpRule : ruleHypotheses 0x54 := ruleHypotheses_of _
theorem witness_JeqJneRules :
    ruleHypotheses 0x55 ∧ ruleHypotheses 0x56 ∧ State.reset.flags.e = false ∧ (flagged State.reset true false false).flags.e = true :=
  ⟨ruleHypotheses_of _, ruleHypotheses_of _, rfl, rfl⟩

theorem witness_PushThenPopRestores : names 0 0 ∧ names 7 7 := ⟨rfl, rfl⟩

theorem witness_CallThenReturnResumes :
    names 6 6 ∧ (here 253 [0x50, 6]).pc.toNat ≤ 253 ∧ ∃ t, exec (.call 6) (here 253 [0x50, 6]) = .next t ∧
      ∃ u : State, u ≠ t ∧ u.reg 7 = t.reg 7 ∧ u.mem.read (t.reg 7).toNat = t.mem.read (t.reg 7).toNat :=
  ⟨rfl, by decide, _, rfl, { here 0 [] [(7, 0xF3)] with mem := [(0xF3, 255)] }, by decide, by decide, by decide⟩

end Sys2Proof.Tests
end

section
/-! PROOF. Layer used by the proofs below: the opcode byte of an instruction, the bytes that stand at PC, the step by
opcode, and the converse of `exec_effect`. -/

namespace Sys2Proof

open Sys2Proof.Machine.Claim

/-! ### The opcode byte of an instruction (R70, R74) -/

/-- The first byte of the encoding. -/
def Instr.opcode (i : Instr) : Byte := (encode i).headD 0

theorem encode_getElem_zero (i : Instr) : (encode i)[0]? = some i.opcode := by cases i <;> rfl

/-- R76: the control-transfer set by opcode. -/
theorem isControl_of_opcode {i : Instr} (h : i.opcode.toNat ∉ controlOpcodes) : isControl i = false := by
  cases i with
  | call | ret | jmp | jeq | jne => exact absurd h (by simp only [Instr.opcode, encode, List.headD_cons]; decide)
  | _ => rfl

/-- The decoder's known opcodes are the DEFINED of R101. -/
theorem knownOpcodes_toNat : knownOpcodes.map BitVec.toNat = definedOpcodes := by decide

theorem lookup_eq_none_iff_not_defined (ir : Byte) : lookupOpcode ir = none ↔ ir.toNat ∉ definedOpcodes := by
  rw [lookup_eq_none_iff, ← knownOpcodes_toNat, List.mem_map_of_injective BitVec.toNat_injective]

end Sys2Proof

namespace Sys2Proof.Machine

open Sys2Proof Sys2Proof.Machine.Claim

/-! ### The bytes at PC -/

section Bytes

variable {s : State} {i : Instr}

/-- Every byte of the instruction that runs stands where it is fetched from, at an address 0 to 255. -/
theorem CodeAt.byte (hc : CodeAt s i) {k : Nat} {b : Byte} (h : (encode i)[k]? = some b) :
    operandAt s k = b ∧ s.pc.toNat + k ≤ 255 := by
  have hk : k < (encode i).length := (List.getElem?_eq_some_iff.mp h).1
  have hfits := hc.fits
  rw [hc.bytes, List.getElem?_map, List.getElem?_range hk] at h
  exact ⟨Option.some.inj h, by omega⟩

theorem CodeAt.pc_le (hc : CodeAt s i) : s.pc.toNat ≤ 255 := (hc.byte (encode_getElem_zero i)).2

theorem CodeAt.atOpcode (hc : CodeAt s i) (hs : s.status = .running) : atOpcode s i.opcode :=
  ⟨hs, hc.pc_le, (hc.byte (encode_getElem_zero i)).1⟩

end Bytes

/-! ### The step by opcode -/

section StepAt

variable {s t : State} {ir : Byte}

theorem step_at_unknown (hat : atOpcode s ir) (hl : lookupOpcode ir = none) : step s = .next (s.advance ir) := by
  obtain ⟨hs, hpc, rfl⟩ := hat
  exact step_of_fetch_unknown hs (fetch_unknown (by omega) hl)

theorem step_at_bare {i : Instr} (hat : atOpcode s ir) (hl : lookupOpcode ir = some (.bare i)) : step s = exec i s := by
  obtain ⟨hs, hpc, rfl⟩ := hat
  exact step_of_fetch_instr hs (fetch_bare (by omega) hl)

theorem step_at_one {mk : Byte → Instr} (hat : atOpcode s ir) (hl : lookupOpcode ir = some (.one mk))
    (hpc : s.pc.toNat ≤ 254) : step s = exec (mk (operandAt s 1)) s := by
  obtain ⟨hs, -, rfl⟩ := hat
  exact step_of_fetch_instr hs (fetch_one (by omega) hl)

theorem step_at_one_fault {mk : Byte → Instr} (hat : atOpcode s ir) (hl : lookupOpcode ir = some (.one mk))
    (hpc : s.pc.toNat = 255) : step s = .next (raise (.memoryFault 256) s) := by
  obtain ⟨hs, -, rfl⟩ := hat
  exact step_of_fetch_error hs (fetch_one_fault hpc hl)

theorem step_at_two {mk : Byte → Byte → Instr} (hat : atOpcode s ir) (hl : lookupOpcode ir = some (.two mk))
    (hpc : s.pc.toNat ≤ 253) : step s = exec (mk (operandAt s 1) (operandAt s 2)) s := by
  obtain ⟨hs, -, rfl⟩ := hat
  exact step_of_fetch_instr hs (fetch_two (by omega) hl)

end StepAt

/-! ### From an effect back to `exec` -/

section ExecOfEffect

variable {i : Instr} {s t : State} {a b c : Byte}

theorem withReg_badOperand (h : [a].find? (fun r => decide (7 < r.toNat)) = some c) (k : Reg → Handler) :
    withReg a s k = .next (raise (.registerIndexFault c) s) := by
  have hc : 7 < c.toNat := by simpa using List.find?_some h
  obtain rfl : c = a := by simpa using List.mem_of_find?_eq_some h
  exact withReg_bad hc s k

theorem withRegs_badOperand (h : [a, b].find? (fun r => decide (7 < r.toNat)) = some c) (k : Reg → Reg → Handler) :
    withRegs a b s k = .next (raise (.registerIndexFault c) s) := by
  by_cases ha : 7 < a.toNat
  · rw [List.find?_cons_of_pos (by simpa using ha)] at h
    cases h
    exact withRegs_badFirst ha b s k
  · rw [List.find?_cons_of_neg (by simpa using ha)] at h
    have hc : 7 < c.toNat := by simpa using List.find?_some h
    obtain rfl : c = b := by simpa using List.mem_of_find?_eq_some h
    exact withRegs_badSecond (by omega) hc s k

/-- R105: the first register operand byte that names no register faults, whatever the instruction. -/
theorem exec_badOperand (h : i.regOperands.find? (fun r => decide (7 < r.toNat)) = some c) :
    exec i s = .next (raise (.registerIndexFault c) s) := by
  cases i with
  | hlt | ret => cases h
  | ldi | prn | not | push | pop | call | jmp | jeq | jne => exact withReg_badOperand h _
  | add | mul | mod | and | or | xor | shl | shr | cmp => exact withRegs_badOperand h _

/-- The converse of `exec_effect`: the paths exclude each other. -/
theorem exec_of_effect (he : Effect i s t) : exec i s = .next t := by
  cases he with
  | badOperand hf => exact exec_badOperand hf
  | returnAddress ha h => exact exec_call_fault s ha h
  | hlt => exact exec_hlt s
  | ldi ha => exact exec_ldi s ha _
  | prn ha => exact exec_prn s ha
  | modHalt ha hb h => exact exec_mod_zero s ha hb h
  | mod ha hb h => exact exec_mod s ha hb h
  | not ha => exact exec_not s ha
  | cmp ha hb => exact exec_cmp s ha hb
  | push ha => exact exec_push s ha
  | pop ha => exact exec_pop s ha
  | call ha h => exact exec_call s ha h
  | ret => exact exec_ret s
  | jmp ha => exact exec_jmp s ha
  | jeq ha => exact exec_jeq s ha
  | jne ha => exact exec_jne s ha
  | add ha hb | mul ha hb | and ha hb | or ha hb | xor ha hb | shl ha hb | shr ha hb => exact aluBinary_ok s _ _ ha hb

end ExecOfEffect

/-! ### A conditional jump, taken and not taken (R174, R175) -/

@[simp] theorem jumpIf_true (ir : Byte) (r : Reg) (s : State) : jumpIf true ir r s = s.jump (s.reg r) := rfl
@[simp] theorem jumpIf_false (ir : Byte) (r : Reg) (s : State) : jumpIf false ir r s = s.advance ir := rfl

end Sys2Proof.Machine
end

section
/-! PROOF. The invariant `State.Inv` (R25, R27, R30, R190): one rule per state operation, then every effect of an
instruction, every step, and the start states. -/

namespace Sys2Proof.Machine

open Sys2Proof

/-! ### Flags and PC within their ranges -/

/-- R27: a compare leaves at most one flag true. -/
theorem compareFlags_exclusive (a b : Byte) : (compareFlags a b).exclusive := by
  simp only [Flags.exclusive, compareFlags, decide_eq_true_eq]
  omega

theorem zext9_le (b : Byte) : (zext9 b).toNat ≤ 255 := by
  have := b.isLt
  rw [zext9_toNat]
  omega

/-- An address fault from a PC that the invariant bounds is one of R190's. -/
theorem memoryFault_legal {addr : Nat} (h : 256 ≤ addr) (h' : addr ≤ 259) : (RuntimeFault.memoryFault addr).legal :=
  ⟨h, h'⟩

/-! ### What each state operation does to the invariant -/

namespace State.Inv

variable {s : State}

theorem setReg (hi : s.Inv) (r : Reg) (v : Byte) : (s.setReg r v).Inv := ⟨hi.memory, hi.pc, hi.flags, hi.fault⟩

theorem emit (hi : s.Inv) (ev : Event) : (s.emit ev).Inv := ⟨hi.memory, hi.pc, hi.flags, hi.fault⟩

theorem halt (hi : s.Inv) : s.halt.Inv := ⟨hi.memory, hi.pc, hi.flags, fun _ h => nomatch h⟩

theorem raise (hi : s.Inv) {f : RuntimeFault} (hf : f.legal) : (raise f s).Inv :=
  ⟨hi.memory, hi.pc, hi.flags, fun _ h => by cases h; exact hf⟩

theorem jump (hi : s.Inv) (b : Byte) : (s.jump b).Inv :=
  ⟨hi.memory, Nat.le_trans (zext9_le b) (by decide), hi.flags, hi.fault⟩

/-- From an address 0 to 255 the advance by at most 4 ends at 259 or below (R25). -/
theorem advance (hi : s.Inv) (hpc : s.pc.toNat ≤ 255) (ir : Byte) : (s.advance ir).Inv := by
  refine ⟨hi.memory, ?_, hi.flags, hi.fault⟩
  have := operandCount_lt ir
  rw [advance_pc_toNat hpc]
  omega

theorem compare (hi : s.Inv) (a b : Byte) : ({ s with flags := compareFlags a b } : State).Inv :=
  ⟨hi.memory, hi.pc, compareFlags_exclusive a b, hi.fault⟩

theorem pushed (hi : s.Inv) (r : Reg) : (pushed s r).Inv :=
  ⟨Memory.wf_write _ (s.reg spReg - 1).isLt hi.memory, hi.pc, hi.flags, hi.fault⟩

theorem popSp (hi : s.Inv) : s.popSp.Inv := hi.setReg _ _

theorem called (hi : s.Inv) : (called s).Inv := (hi.setReg _ _).pushed _

theorem jumpIf (hi : s.Inv) (hpc : s.pc.toNat ≤ 255) (c : Bool) (ir : Byte) (r : Reg) : (jumpIf c ir r s).Inv := by
  cases c with
  | true => exact hi.jump _
  | false => exact hi.advance hpc _

end State.Inv

/-! ### Effects, steps and start states -/

/-- Every effect of an instruction that stands at an address 0 to 255 keeps the invariant. -/
theorem Effect.inv {i : Instr} {s t : State} (he : Effect i s t) (hi : s.Inv) (hpc : s.pc.toNat ≤ 255) : t.Inv := by
  cases he with
  | badOperand _ hb => exact hi.raise hb
  | returnAddress _ h => exact hi.raise (memoryFault_legal h (by omega))
  | hlt => exact hi.halt.advance hpc _
  | prn => exact (hi.emit _).advance hpc _
  | modHalt => exact (hi.emit _).halt.advance hpc _
  | cmp => exact (hi.compare _ _).advance hpc _
  | push => exact (hi.pushed _).advance hpc _
  | pop => exact (hi.setReg _ _).popSp.advance hpc _
  | call => exact hi.called.jump _
  | ret => exact (hi.jump _).popSp
  | jmp => exact hi.jump _
  | jeq | jne => exact hi.jumpIf hpc _ _ _
  | ldi | add | mul | mod | and | or | xor | not | shl | shr => exact (hi.setReg _ _).advance hpc _

theorem step_keeps_inv {s t : State} (hi : s.Inv) (h : step s = .next t) : t.Inv := by
  cases step_summary h with
  | past h ht => exact ht ▸ hi.raise (memoryFault_legal h hi.pc)
  | unknown h _ ht => exact ht ▸ hi.advance (by omega) _
  | operandFault _ _ _ ht => exact ht ▸ hi.raise (memoryFault_legal (by decide) (by decide))
  | instr hc he => exact he.inv hi hc.pc_le

theorem reset_inv : State.reset.Inv :=
  ⟨Memory.wf_nil, by decide, by unfold Flags.exclusive; decide, fun _ h => nomatch h⟩

/-- The loader keeps the canonical form, and registers are not in the invariant. -/
theorem launch_inv {image : List Byte} {regs : Vector Byte 8} {flags : Flags} {s : State} (hf : flags.exclusive)
    (h : State.launch image regs flags = some s) : s.Inv := by
  obtain ⟨-, rfl⟩ := launch_eq_some h
  exact ⟨Memory.wf_load Memory.wf_nil, reset_inv.pc, hf, reset_inv.fault⟩

end Sys2Proof.Machine
end

section
/-! PROOF. Fields that no instruction reads (R28, R29, R31): a relation between two states that agree on everything that is
read, and that every state operation keeps, is kept by every instruction and every step. -/

namespace Sys2Proof.Machine

open Sys2Proof Sys2Proof.Machine.Claim

/-- Related states agree on what instructions read (registers, PC, memory, E), and writing the same to both keeps them
related. What they may differ in is unread. -/
structure Unread (R : State → State → Prop) : Prop where
  regs : ∀ {s s'}, R s s' → s'.regs = s.regs
  pc : ∀ {s s'}, R s s' → s'.pc = s.pc
  mem : ∀ {s s'}, R s s' → s'.mem = s.mem
  e : ∀ {s s'}, R s s' → s'.flags.e = s.flags.e
  setReg : ∀ {s s'} r v, R s s' → R (s.setReg r v) (s'.setReg r v)
  setPc : ∀ {s s'} p, R s s' → R { s with pc := p } { s' with pc := p }
  setMem : ∀ {s s'} m, R s s' → R { s with mem := m } { s' with mem := m }
  setFlags : ∀ {s s'} f, R s s' → R { s with flags := f } { s' with flags := f }
  setStatus : ∀ {s s'} st, R s s' → R { s with status := st } { s' with status := st }
  emit : ∀ {s s'} ev, R s s' → R (s.emit ev) (s'.emit ev)

namespace Unread

variable {R : State → State → Prop} (hR : Unread R) {s s' t : State}
include hR

theorem reg (h : R s s') (r : Reg) : s'.reg r = s.reg r := by rw [State.reg, hR.regs h, ← State.reg]

/-! ### The operations that handlers are made of -/

theorem jump (b : Byte) (h : R s s') : R (s.jump b) (s'.jump b) := hR.setPc _ h

theorem advance (ir : Byte) (h : R s s') : R (s.advance ir) (s'.advance ir) := by
  have := hR.setPc (s.pc + BitVec.ofNat 9 (1 + operandCount ir)) h
  rwa [State.advance, State.advance, hR.pc h]

theorem halt (h : R s s') : R s.halt s'.halt := hR.setStatus _ h

theorem raise (f : RuntimeFault) (h : R s s') : R (raise f s) (raise f s') := hR.setStatus _ h

theorem popSp (h : R s s') : R s.popSp s'.popSp := by
  rw [State.popSp, State.popSp, hR.reg h]
  exact hR.setReg _ _ h

theorem pushed (r : Reg) (h : R s s') : R (pushed s r) (pushed s' r) := by
  have h₁ := hR.setReg spReg (s.reg spReg - 1) h
  have h₂ := hR.setMem (Machine.pushed s r).mem h₁
  simp only [Machine.pushed, hR.reg h, hR.reg h₁, hR.mem h] at h₂ ⊢
  rw [← hR.reg h₁] at h₂ ⊢
  exact h₂

theorem called (h : R s s') : R (called s) (called s') := by
  rw [Machine.called, Machine.called, hR.pc h]
  exact hR.pushed _ (hR.setReg _ _ h)

theorem jumpIf (c : Bool) (ir : Byte) (r : Reg) (h : R s s') : R (jumpIf c ir r s) (jumpIf c ir r s') := by
  cases c with
  | true => rw [jumpIf_true, jumpIf_true, hR.reg h]; exact hR.jump _ h
  | false => exact hR.advance _ h

/-- A two-operand ALU operation (R130). -/
theorem alu (f : Byte → Byte → Byte) (ir : Byte) (ra rb : Reg) (h : R s s') :
    R ((s.setReg ra (f (s.reg ra) (s.reg rb))).advance ir) ((s'.setReg ra (f (s'.reg ra) (s'.reg rb))).advance ir) := by
  rw [hR.reg h, hR.reg h]
  exact hR.advance _ (hR.setReg _ _ h)

/-! ### Instructions and steps -/

/-- Each path of an instruction is open to the related state and ends in a related state. -/
theorem effect {i : Instr} (h : R s s') (he : Effect i s t) : ∃ t', Effect i s' t' ∧ R t t' := by
  have hreg := hR.reg h
  have hpc := hR.pc h
  cases he with
  | badOperand hf hb => exact ⟨_, .badOperand hf hb, hR.raise _ h⟩
  | returnAddress ha hlt => exact ⟨_, .returnAddress ha (hpc ▸ hlt), hpc ▸ hR.raise _ h⟩
  | hlt => exact ⟨_, .hlt, hR.advance _ (hR.halt h)⟩
  | ldi ha => exact ⟨_, .ldi ha, hR.advance _ (hR.setReg _ _ h)⟩
  | prn ha => exact ⟨_, .prn ha, hreg _ ▸ hR.advance _ (hR.emit _ h)⟩
  | modHalt ha hb hz => exact ⟨_, .modHalt ha hb (hreg _ ▸ hz), hR.advance _ (hR.halt (hR.emit _ h))⟩
  | mod ha hb hz => exact ⟨_, .mod ha hb (hreg _ ▸ hz), hR.alu aluMod _ _ _ h⟩
  | add ha hb => exact ⟨_, .add ha hb, hR.alu aluAdd _ _ _ h⟩
  | mul ha hb => exact ⟨_, .mul ha hb, hR.alu aluMul _ _ _ h⟩
  | and ha hb => exact ⟨_, .and ha hb, hR.alu aluAnd _ _ _ h⟩
  | or ha hb => exact ⟨_, .or ha hb, hR.alu aluOr _ _ _ h⟩
  | xor ha hb => exact ⟨_, .xor ha hb, hR.alu aluXor _ _ _ h⟩
  | shl ha hb => exact ⟨_, .shl ha hb, hR.alu aluShl _ _ _ h⟩
  | shr ha hb => exact ⟨_, .shr ha hb, hR.alu aluShr _ _ _ h⟩
  | not ha => exact ⟨_, .not ha, hreg _ ▸ hR.advance _ (hR.setReg _ _ h)⟩
  | cmp ha hb => exact ⟨_, .cmp ha hb, hreg _ ▸ hreg _ ▸ hR.advance _ (hR.setFlags _ h)⟩
  | push ha => exact ⟨_, .push ha, hR.advance _ (hR.pushed _ h)⟩
  | pop ha => exact ⟨_, .pop ha, hreg _ ▸ hR.mem h ▸ hR.advance _ (hR.popSp (hR.setReg _ _ h))⟩
  | call ha hlt => exact ⟨_, .call ha (hpc ▸ hlt), hR.reg (hR.called h) _ ▸ hR.jump _ (hR.called h)⟩
  | ret => exact ⟨_, .ret, hreg _ ▸ hR.mem h ▸ hR.popSp (hR.jump _ h)⟩
  | jmp ha => exact ⟨_, .jmp ha, hreg _ ▸ hR.jump _ h⟩
  | jeq ha => exact ⟨_, .jeq ha, hR.e h ▸ hR.jumpIf _ _ _ h⟩
  | jne ha => exact ⟨_, .jne ha, hR.e h ▸ hR.jumpIf _ _ _ h⟩

theorem exec {i : Instr} (h : R s s') (hx : exec i s = .next t) : ∃ t', exec i s' = .next t' ∧ R t t' :=
  (hR.effect h (exec_effect hx)).imp fun _ ⟨he, ht⟩ => ⟨exec_of_effect he, ht⟩

/-- The step reads STATUS besides what an instruction reads (R100). -/
theorem step (h : R s s') (hst : s'.status = s.status) (hx : step s = .next t) : ∃ t', step s' = .next t' ∧ R t t' := by
  have hs : s.status = .running := running_of_step hx
  have hs' : s'.status = .running := hst.trans hs
  have hf : fetch s' = fetch s := fetch_congr (hR.pc h) (hR.mem h)
  rcases hcase : fetch s with f | (i | ir)
  · rw [step_of_fetch_error hs hcase] at hx
    cases hx
    exact ⟨_, step_of_fetch_error hs' (hf.trans hcase), hR.raise f h⟩
  · rw [step_of_fetch_instr hs hcase] at hx
    rw [step_of_fetch_instr hs' (hf.trans hcase)]
    exact hR.exec h hx
  · rw [step_of_fetch_unknown hs hcase] at hx
    cases hx
    exact ⟨_, step_of_fetch_unknown hs' (hf.trans hcase), hR.advance ir h⟩

end Unread

/-! ### STATUS, the flags L and G, and OUT are unread -/

/-- The second state is the first but for STATUS. -/
def ButStatus (s s' : State) : Prop := ∃ st, s' = { s with status := st }

theorem unread_butStatus : Unread ButStatus where
  regs := fun ⟨_, h⟩ => h ▸ rfl
  pc := fun ⟨_, h⟩ => h ▸ rfl
  mem := fun ⟨_, h⟩ => h ▸ rfl
  e := fun ⟨_, h⟩ => h ▸ rfl
  setReg _ _ := fun ⟨st, h⟩ => ⟨st, h ▸ rfl⟩
  setPc _ := fun ⟨st, h⟩ => ⟨st, h ▸ rfl⟩
  setMem _ := fun ⟨st, h⟩ => ⟨st, h ▸ rfl⟩
  setFlags _ := fun ⟨st, h⟩ => ⟨st, h ▸ rfl⟩
  setStatus st := fun ⟨_, h⟩ => ⟨st, h ▸ rfl⟩
  emit _ := fun ⟨st, h⟩ => ⟨st, h ▸ rfl⟩

/-- The second state is the first, or the first with flags `f'` where it had `f`. -/
inductive ButFlags (f f' : Flags) : State → State → Prop
  | same (s : State) : ButFlags f f' s s
  | kept {s : State} (h : s.flags = f) : ButFlags f f' s { s with flags := f' }

/-- R28: flags that agree on E are not told apart. -/
theorem unread_butFlags {f f' : Flags} (he : f'.e = f.e) : Unread (ButFlags f f') where
  regs | .same _ | .kept _ => rfl
  pc | .same _ | .kept _ => rfl
  mem | .same _ | .kept _ => rfl
  e | .same _ => rfl
    | .kept h => h ▸ he
  setReg _ _ | .same _ => .same _
             | .kept h => .kept h
  setPc _ | .same _ => .same _
          | .kept h => .kept h
  setMem _ | .same _ => .same _
           | .kept h => .kept h
  setFlags _ | .same _ | .kept _ => .same _
  setStatus _ | .same _ => .same _
              | .kept h => .kept h
  emit _ | .same _ => .same _
         | .kept h => .kept h

/-- Of two runs whose OUT began as `o` and `o'`, both have emitted the same since and agree otherwise. -/
def ButOut (o o' : List Event) (s s' : State) : Prop := ∃ evs, s.out = o ++ evs ∧ s' = { s with out := o' ++ evs }

theorem unread_butOut (o o' : List Event) : Unread (ButOut o o') where
  regs := fun ⟨_, _, h⟩ => h ▸ rfl
  pc := fun ⟨_, _, h⟩ => h ▸ rfl
  mem := fun ⟨_, _, h⟩ => h ▸ rfl
  e := fun ⟨_, _, h⟩ => h ▸ rfl
  setReg _ _ := fun ⟨evs, ho, h⟩ => ⟨evs, ho, h ▸ rfl⟩
  setPc _ := fun ⟨evs, ho, h⟩ => ⟨evs, ho, h ▸ rfl⟩
  setMem _ := fun ⟨evs, ho, h⟩ => ⟨evs, ho, h ▸ rfl⟩
  setFlags _ := fun ⟨evs, ho, h⟩ => ⟨evs, ho, h ▸ rfl⟩
  setStatus _ := fun ⟨evs, ho, h⟩ => ⟨evs, ho, h ▸ rfl⟩
  emit ev := fun ⟨evs, ho, h⟩ => ⟨evs ++ [ev], by simp [ho], by simp [h, State.emit]⟩

end Sys2Proof.Machine
end

section
/-! PROOF. What each element of the state can do in a step (R26, R27, R29, R31), from the paths of `Effect`. -/

namespace Sys2Proof.Machine

open Sys2Proof Sys2Proof.Machine.Claim

section Facts

variable {i : Instr} {s t : State}

/-! ### Faults -/

/-- An instruction that a running engine executes ends in FAULTED only by fault entry. -/
theorem Effect.eq_raise (he : Effect i s t) (hs : s.status = .running) {f : RuntimeFault} (ht : t.status = .faulted f) :
    t = raise f s := by
  cases he with
  | badOperand | returnAddress => cases ht; rfl
  | hlt | modHalt => cases ht
  | jeq | jne => rw [jumpIf_status, hs] at ht; cases ht
  | _ => cases hs.symm.trans ht

/-- R195: a step that ends in FAULTED is fault entry. -/
theorem step_eq_raise (h : step s = .next t) {f : RuntimeFault} (ht : t.status = .faulted f) : t = raise f s := by
  have hs := running_of_step h
  cases step_summary h with
  | past _ h' | operandFault _ _ _ h' => subst h'; cases ht; rfl
  | unknown _ _ h' => subst h'; cases hs.symm.trans ht
  | instr _ he => exact he.eq_raise hs ht

/-! ### PC (R26) -/

/-- Outside the control-transfer set PC advances past the instruction, unless the instruction faults. -/
theorem Effect.pc_of_not_control (he : Effect i s t) (hi : isControl i = false) :
    (∃ f, t = raise f s) ∨ t.pc = (s.advance i.opcode).pc := by
  cases he with
  | badOperand => exact .inl ⟨_, rfl⟩
  | returnAddress | call | ret | jmp | jeq | jne => cases hi
  | _ => exact .inr rfl

theorem step_pc_of_not_control {ir : Byte} (hat : atOpcode s ir) (h : step s = .next t) (ht : ∀ f, t.status ≠ .faulted f)
    (hir : ir.toNat ∉ controlOpcodes) : t.pc.toNat = s.pc.toNat + 1 + ir.toNat / 64 := by
  obtain ⟨hs, hpc, rfl⟩ := hat
  rw [← operandCount_eq, ← advance_pc_toNat hpc]
  cases step_summary h with
  | past h' => omega
  | operandFault _ _ _ h' => exact absurd rfl (h' ▸ ht _)
  | unknown _ _ h' => rw [h']
  | instr hc he =>
    have hop := (hc.atOpcode hs).2.2
    rw [hop] at hir ⊢
    obtain ⟨f, rfl⟩ | hpc' := he.pc_of_not_control (isControl_of_opcode hir)
    · exact absurd rfl (ht f)
    · rw [hpc']

/-- A step at the opcode of a one-operand instruction that does not fault is an effect of that instruction. -/
theorem effect_of_step_at_one {ir : Byte} {mk : Byte → Instr} (hl : lookupOpcode ir = some (.one mk))
    (hat : atOpcode s ir) (h : step s = .next t) (ht : ∀ f, t.status ≠ .faulted f) : Effect (mk (operandAt s 1)) s t := by
  by_cases hpc : s.pc.toNat ≤ 254
  · exact exec_effect (step_at_one hat hl hpc ▸ h)
  · have hpc' : s.pc.toNat = 255 := by have := hat.2.1; omega
    rw [step_at_one_fault hat hl hpc'] at h
    cases h
    exact absurd rfl (ht _)

/-- The target is read after CALL's writes, so it is the register's value in the state reached (R171). -/
theorem pc_of_call {a : Byte} (he : Effect (.call a) s t) (ht : ∀ f, t.status ≠ .faulted f) :
    ∃ r, names a r ∧ t.pc = zext9 (t.reg r) := by
  cases he with
  | badOperand | returnAddress => exact absurd rfl (ht _)
  | call ha => exact ⟨_, ha, rfl⟩

theorem pc_of_jmp {a : Byte} (he : Effect (.jmp a) s t) (ht : ∀ f, t.status ≠ .faulted f) :
    ∃ r, names a r ∧ t.pc = zext9 (t.reg r) := by
  cases he with
  | badOperand => exact absurd rfl (ht _)
  | jmp ha => exact ⟨_, ha, rfl⟩

theorem pc_of_jeq {a : Byte} (he : Effect (.jeq a) s t) (ht : ∀ f, t.status ≠ .faulted f) :
    (s.flags.e = true → ∃ r, names a r ∧ t.pc = zext9 (t.reg r)) ∧
    (s.flags.e = false → t.pc = (s.advance Opcode.jeq).pc) := by
  cases he with
  | badOperand => exact absurd rfl (ht _)
  | jeq ha => exact ⟨fun h => ⟨_, ha, by simp [h]⟩, fun h => by simp [h]⟩

theorem pc_of_jne {a : Byte} (he : Effect (.jne a) s t) (ht : ∀ f, t.status ≠ .faulted f) :
    (s.flags.e = false → ∃ r, names a r ∧ t.pc = zext9 (t.reg r)) ∧
    (s.flags.e = true → t.pc = (s.advance Opcode.jne).pc) := by
  cases he with
  | badOperand => exact absurd rfl (ht _)
  | jne ha => exact ⟨fun h => ⟨_, ha, by simp [h]⟩, fun h => by simp [h]⟩

/-- The target of a jump that is taken, as a number. -/
theorem target_toNat {a : Byte} (h : ∃ r, names a r ∧ t.pc = zext9 (t.reg r)) :
    ∃ r, names a r ∧ t.pc.toNat = (t.reg r).toNat :=
  h.imp fun _ ⟨hn, hpc⟩ => ⟨hn, by rw [hpc, zext9_toNat]⟩

theorem step_pc_of_ret (hat : atOpcode s 0x11) (h : step s = .next t) :
    t.pc.toNat = (s.mem.read (s.reg 7).toNat).toNat := by
  rw [step_at_bare hat lookup_ret, exec_ret] at h
  cases h
  exact zext9_toNat _

/-- PC + 2, the not-taken path of JEQ and JNE. -/
theorem advance_two {ir : Byte} (hat : atOpcode s ir) (hn : operandCount ir = 1) (hpc : t.pc = (s.advance ir).pc) :
    t.pc.toNat = s.pc.toNat + 2 := by
  rw [hpc, advance_pc_toNat hat.2.1, hn]

/-! ### STATUS (R29) -/

/-- HLT, or MOD of named registers with a zero divisor. -/
def halts (i : Instr) (s : State) : Prop :=
  i = .hlt ∨ ∃ a b ra rb, i = .mod a b ∧ names a ra ∧ names b rb ∧ s.reg rb = 0

theorem Effect.halts_of_halted (he : Effect i s t) (hs : s.status = .running) (ht : t.status = .halted) : halts i s := by
  cases he with
  | badOperand | returnAddress => cases ht
  | hlt => exact .inl rfl
  | modHalt ha hb hz => exact .inr ⟨_, _, _, _, rfl, ha, hb, hz⟩
  | jeq | jne => rw [jumpIf_status, hs] at ht; cases ht
  | _ => cases hs.symm.trans ht

/-- The clause of R29 for HALTED: HLT at PC, or MOD at PC with named registers and a zero divisor. -/
theorem step_halted_iff (h : step s = .next t) : t.status = .halted ↔
    (s.pc.toNat ≤ 255 ∧ s.mem.read s.pc.toNat = 0x01) ∨
    (s.pc.toNat ≤ 253 ∧ s.mem.read s.pc.toNat = 0xA4 ∧
      ∃ ra rb, names (operandAt s 1) ra ∧ names (operandAt s 2) rb ∧ s.reg rb = 0) := by
  have hs := running_of_step h
  constructor
  · intro ht
    cases step_summary h with
    | past _ h' | operandFault _ _ _ h' => subst h'; cases ht
    | unknown _ _ h' => subst h'; cases hs.symm.trans ht
    | instr hc he =>
      have hat := hc.atOpcode hs
      obtain rfl | ⟨a, b, ra, rb, rfl, ha, hb, hz⟩ := he.halts_of_halted hs ht
      · exact .inl ⟨hat.2.1, hat.2.2⟩
      · obtain ⟨h₁, -⟩ := hc.byte (k := 1) rfl
        obtain ⟨h₂, hpc⟩ := hc.byte (k := 2) rfl
        exact .inr ⟨by omega, hat.2.2, ra, rb, h₁ ▸ ha, h₂ ▸ hb, hz⟩
  · rintro (⟨hpc, hop⟩ | ⟨hpc, hop, ra, rb, ha, hb, hz⟩)
    · rw [step_at_bare ⟨hs, hpc, hop⟩ lookup_hlt, exec_hlt] at h
      cases h
      rfl
    · rw [step_at_two ⟨hs, by omega, hop⟩ lookup_mod hpc, exec_mod_zero s ha hb hz] at h
      cases h
      rfl

/-! ### Flags (R27, R28) -/

theorem Effect.flags (he : Effect i s t) : t.flags = s.flags ∨ i.opcode = 0xA7 := by
  cases he with
  | cmp => exact .inr rfl
  | jeq | jne => exact .inl (jumpIf_flags _ _ _ _)
  | _ => exact .inl rfl

/-- Of the three conditions of R140 exactly one holds. -/
theorem compareFlags_cases (a b : Byte) :
    compareFlags a b = ⟨true, false, false⟩ ∨ compareFlags a b = ⟨false, true, false⟩ ∨
    compareFlags a b = ⟨false, false, true⟩ := by
  simp only [compareFlags, Flags.mk.injEq, decide_eq_true_eq, decide_eq_false_iff_not]
  omega

/-! ### OUT (R31) -/

/-- What an instruction appends to OUT. -/
inductive Emits (i : Instr) (s t : State) : List Event → Prop
  | nothing : Emits i s t []
  | print {a : Byte} {r : Reg} (hi : i = .prn a) (ha : names a r) : Emits i s t [.print (s.reg r)]
  | invalidDivisor (hi : i.opcode = 0xA4) (ht : t.status = .halted) : Emits i s t [.invalidDivisor]

theorem Effect.emits (he : Effect i s t) : ∃ evs, t.out = s.out ++ evs ∧ Emits i s t evs := by
  cases he with
  | prn ha => exact ⟨_, rfl, .print rfl ha⟩
  | modHalt => exact ⟨_, rfl, .invalidDivisor rfl rfl⟩
  | jeq | jne => exact ⟨[], by simp, .nothing⟩
  | _ => exact ⟨[], (List.append_nil _).symm, .nothing⟩

/-- What a step appends to OUT, by the opcode at PC. -/
theorem step_emits (h : step s = .next t) : ∃ evs, t.out = s.out ++ evs ∧
    (evs = [] ∨
     (atOpcode s 0x47 ∧ ∃ r, names (operandAt s 1) r ∧ evs = [.print (s.reg r)]) ∨
     (atOpcode s 0xA4 ∧ t.status = .halted ∧ evs = [.invalidDivisor])) := by
  have hs := running_of_step h
  cases step_summary h with
  | past _ h' | operandFault _ _ _ h' | unknown _ _ h' => exact ⟨[], by simp [h'], .inl rfl⟩
  | instr hc he =>
    obtain ⟨evs, hout, hev⟩ := he.emits
    refine ⟨evs, hout, ?_⟩
    cases hev with
    | nothing => exact .inl rfl
    | print hi ha =>
      subst hi
      obtain ⟨h₁, -⟩ := hc.byte (k := 1) rfl
      exact .inr (.inl ⟨hc.atOpcode hs, _, h₁ ▸ ha, rfl⟩)
    | invalidDivisor hi ht => exact .inr (.inr ⟨hi ▸ hc.atOpcode hs, ht, rfl⟩)

end Facts

end Sys2Proof.Machine
end

section
/-! PROOF. Which registers an instruction writes and reads (R24). -/

namespace Sys2Proof.Machine

open Sys2Proof Sys2Proof.Machine.Claim

section Facts

variable {i : Instr} {s t : State} {a : Byte} {r q ra : Reg} {v : Byte}

/-- A byte names one register. -/
theorem names_iff_eq (ha : a.toNat = ra.val) : names a r ↔ r = ra := by
  rw [names, ha, Fin.ext_iff, eq_comm]

/-! ### Writes -/

/-- A register outside the row's writes keeps its value. -/
theorem Effect.reg_of_not_writes (he : Effect i s t) (hw : ¬writesReg i s r) : t.reg r = s.reg r := by
  cases he with
  | badOperand | returnAddress | hlt | prn | modHalt | cmp | jmp => rfl
  | jeq | jne => exact jumpIf_reg _ _ _ _ _
  | mod ha hb hz =>
    exact reg_setReg_ne fun h => hw ⟨(names_iff_eq ha).mpr h, fun q hq => (names_iff_eq hb).mp hq ▸ hz⟩
  | push | ret => exact reg_setReg_ne hw
  | pop ha =>
    obtain ⟨h₁, h₂⟩ := not_or.mp hw
    rw [advance_reg, popSp_reg, if_neg h₂, reg_setReg_ne (h₁ ∘ (names_iff_eq ha).mpr)]
  | call =>
    obtain ⟨h₁, h₂⟩ := not_or.mp hw
    rw [jump_reg, called_reg, if_neg h₂, if_neg h₁]
  | ldi ha | add ha | mul ha | and ha | or ha | xor ha | not ha | shl ha | shr ha =>
    exact reg_setReg_ne (hw ∘ (names_iff_eq ha).mpr)

/-! ### A register set to another value, under the state operations -/

theorem setReg_pushed (hr : r ≠ spReg) (hq : r ≠ q) : pushed (s.setReg r v) q = (pushed s q).setReg r v :=
  state_ext
    (fun x => by
      simp only [pushed_reg, reg_setReg, if_neg hr.symm]
      by_cases hx : x = r
      · simp [hx, hr]
      · simp [hx])
    rfl rfl rfl (by simp [reg_setReg, hr.symm, hq.symm]) rfl

theorem setReg_popSp (hr : r ≠ spReg) : (s.setReg r v).popSp = s.popSp.setReg r v := by
  simp only [State.popSp, reg_setReg_ne hr.symm]
  exact setReg_comm s v _ hr

theorem setReg_called (hr : r ≠ spReg) (hl : r ≠ linkReg) : called (s.setReg r v) = (called s).setReg r v := by
  rw [called, called, setReg_pc, setReg_comm s v _ hl, setReg_pushed hr hl]

/-- CALL overwrites the link register without reading it. -/
theorem called_setReg_link : called (s.setReg linkReg v) = called s := by
  rw [called, called, setReg_pc, setReg_setReg_same]

/-- A jump that is taken reads its register, and none that is not. -/
theorem setReg_jumpIf {c : Bool} {ir : Byte} (h : c = true → r ≠ q) :
    jumpIf c ir q (s.setReg r v) = (jumpIf c ir q s).setReg r v := by
  cases c with
  | true => rw [jumpIf_true, reg_setReg_ne (h rfl).symm]; rfl
  | false => rfl

/-- Writing one register from the value `w`: the other value in `r` stays, or is overwritten. -/
theorem setReg_setReg_cases (w : Byte) :
    (s.setReg r v).setReg q w = (s.setReg q w).setReg r v ∨ (r = q ∧ (s.setReg r v).setReg q w = s.setReg q w) := by
  by_cases h : r = q
  · exact .inr ⟨h, by rw [h, setReg_setReg_same]⟩
  · exact .inl (setReg_comm s v w h)

/-! ### Reads -/

/-- The outcome of the same path with another value in `r`: the same but for `r`, or the same where the row writes `r`. -/
def SameBut (i : Instr) (s : State) (r : Reg) (v : Byte) (t t' : State) : Prop :=
  t' = t.setReg r v ∨ (writesReg i s r ∧ t' = t)

theorem ne_of_not_names (ha : a.toNat = ra.val) (h : ¬names a r) : r ≠ ra := h ∘ (names_iff_eq ha).mpr

theorem ne_of_not_names_or {b : Byte} {rb : Reg} (ha : a.toNat = ra.val) (hb : b.toNat = rb.val)
    (h : ¬(names a r ∨ names b r)) : r ≠ ra ∧ r ≠ rb :=
  ⟨ne_of_not_names ha (h ∘ .inl), ne_of_not_names hb (h ∘ .inr)⟩

/-- A two-operand ALU operation reads its two registers alone (R130). -/
theorem setReg_alu {f : Byte → Byte → Byte} {ir : Byte} {rb : Reg} (h : r ≠ ra ∧ r ≠ rb) :
    (((s.setReg r v).setReg ra (f ((s.setReg r v).reg ra) ((s.setReg r v).reg rb))).advance ir) =
      ((s.setReg ra (f (s.reg ra) (s.reg rb))).advance ir).setReg r v := by
  rw [reg_setReg_ne h.1.symm, reg_setReg_ne h.2.symm, setReg_comm s v _ h.1]
  rfl

/-- A register outside the row's reads has no influence on the path an instruction takes nor on what it does. -/
theorem Effect.setReg_unread (he : Effect i s t) (hr : ¬readsReg i s r) (v : Byte) :
    ∃ t', Effect i (s.setReg r v) t' ∧ SameBut i s r v t t' := by
  cases he with
  | badOperand hf hb => exact ⟨_, .badOperand hf hb, .inl rfl⟩
  | returnAddress ha h => exact ⟨_, .returnAddress ha h, .inl rfl⟩
  | hlt => exact ⟨_, .hlt, .inl rfl⟩
  | ldi ha =>
    refine ⟨_, .ldi ha, ?_⟩
    obtain h | ⟨h, h'⟩ := setReg_setReg_cases (s := s) (r := r) (v := v) _
    · exact .inl (congrArg (State.advance · _) h)
    · exact .inr ⟨(names_iff_eq ha).mpr h, congrArg (State.advance · _) h'⟩
  | prn ha =>
    refine ⟨_, .prn ha, .inl ?_⟩
    rw [reg_setReg_ne (ne_of_not_names ha hr).symm]
    rfl
  | not ha =>
    refine ⟨_, .not ha, .inl ?_⟩
    have h := ne_of_not_names ha hr
    rw [reg_setReg_ne h.symm, setReg_comm s v _ h]
    rfl
  | modHalt ha hb hz =>
    have h := ne_of_not_names_or ha hb hr
    exact ⟨_, .modHalt ha hb ((reg_setReg_ne h.2.symm).trans hz), .inl rfl⟩
  | mod ha hb hz =>
    have h := ne_of_not_names_or ha hb hr
    exact ⟨_, .mod ha hb ((reg_setReg_ne h.2.symm).trans_ne hz), .inl (setReg_alu h)⟩
  | add ha hb => exact ⟨_, .add ha hb, .inl (setReg_alu (ne_of_not_names_or ha hb hr))⟩
  | mul ha hb => exact ⟨_, .mul ha hb, .inl (setReg_alu (ne_of_not_names_or ha hb hr))⟩
  | and ha hb => exact ⟨_, .and ha hb, .inl (setReg_alu (ne_of_not_names_or ha hb hr))⟩
  | or ha hb => exact ⟨_, .or ha hb, .inl (setReg_alu (ne_of_not_names_or ha hb hr))⟩
  | xor ha hb => exact ⟨_, .xor ha hb, .inl (setReg_alu (ne_of_not_names_or ha hb hr))⟩
  | shl ha hb => exact ⟨_, .shl ha hb, .inl (setReg_alu (ne_of_not_names_or ha hb hr))⟩
  | shr ha hb => exact ⟨_, .shr ha hb, .inl (setReg_alu (ne_of_not_names_or ha hb hr))⟩
  | cmp ha hb =>
    refine ⟨_, .cmp ha hb, .inl ?_⟩
    obtain ⟨h₁, h₂⟩ := ne_of_not_names_or ha hb hr
    rw [reg_setReg_ne h₁.symm, reg_setReg_ne h₂.symm]
    rfl
  | push ha =>
    refine ⟨_, .push ha, .inl ?_⟩
    obtain ⟨h₁, h₂⟩ := not_or.mp hr
    rw [setReg_pushed h₂ (ne_of_not_names ha h₁)]
    rfl
  | pop ha =>
    refine ⟨_, .pop ha, ?_⟩
    rw [reg_setReg_ne (Ne.symm hr), setReg_mem]
    obtain h | ⟨h, h'⟩ := setReg_setReg_cases (s := s) (r := r) (v := v) _
    · rw [h, setReg_popSp hr]
      exact .inl rfl
    · exact .inr ⟨.inl ((names_iff_eq ha).mpr h), by rw [h']⟩
  | @call _ _ ra ha hlt =>
    refine ⟨_, .call ha hlt, ?_⟩
    obtain ⟨h₁, h₂⟩ := not_or.mp hr
    by_cases hl : r = linkReg
    · subst hl
      exact .inr ⟨.inl rfl, by rw [called_setReg_link]⟩
    · rw [setReg_called h₂ hl, reg_setReg_ne (ne_of_not_names ha h₁).symm]
      exact .inl rfl
  | ret =>
    refine ⟨_, .ret, .inl ?_⟩
    rw [reg_setReg_ne (Ne.symm hr), setReg_mem]
    exact setReg_popSp (s := s.jump _) hr
  | jmp ha =>
    refine ⟨_, .jmp ha, .inl ?_⟩
    rw [reg_setReg_ne (ne_of_not_names ha hr).symm]
    rfl
  | jeq ha => exact ⟨_, .jeq ha, .inl (setReg_jumpIf fun he => ne_of_not_names ha fun hn => hr ⟨hn, he⟩)⟩
  | jne ha =>
    exact ⟨_, .jne ha, .inl (setReg_jumpIf fun he => ne_of_not_names ha fun hn => hr ⟨hn, by simpa using he⟩)⟩

end Facts

end Sys2Proof.Machine
end

section
/-! PROOF. Memory in canonical form (R30), and the reset values (R33). -/

namespace Sys2Proof.Machine

open Sys2Proof Sys2Proof.Machine.Claim

/-- The entries of a canonical memory are the cells that hold something, with what they hold. -/
theorem Memory.mem_iff_read {m : Memory} (h : m.wf = true) (c : Host.Cell) :
    c ∈ m ↔ m.read c.1 = c.2 ∧ c.2 ≠ blankByte := by
  obtain ⟨hsorted, hcells⟩ := (Memory.wf_iff m).mp h
  constructor
  · exact fun hc => ⟨Memory.read_of_mem hsorted hc, (hcells c hc).2⟩
  · rintro ⟨hread, hne⟩
    by_cases hlisted : ∃ d ∈ m, d.1 = c.1
    · obtain ⟨d, hd, hdc⟩ := hlisted
      have hval : d.2 = c.2 := by rw [← hread, ← hdc, Memory.read_of_mem hsorted hd]
      rwa [← Prod.ext hdc hval]
    · exact absurd (hread.symm.trans (Memory.read_of_avoids fun d hd hdc => hlisted ⟨d, hd, hdc⟩)) hne

/-- Canonical memories with the same contents have the same entries, and rising addresses leave them one order. -/
theorem Memory.eq_of_read_eq {m m' : Memory} (h : m.wf = true) (h' : m'.wf = true) (hread : ∀ a, m.read a = m'.read a) :
    m = m' := by
  have hmem (c : Host.Cell) : c ∈ m ↔ c ∈ m' := by rw [mem_iff_read h, mem_iff_read h', hread]
  have hirrefl : Std.Irrefl (fun c d : Host.Cell => c.1 < d.1) := ⟨fun _ => Nat.lt_irrefl _⟩
  have hantisymm : Std.Antisymm (fun c d : Host.Cell => c.1 < d.1) := ⟨fun _ _ h₁ h₂ => absurd h₁ (Nat.lt_asymm h₂)⟩
  exact ((Memory.wf_iff m).mp h).1.eq_of_mem_iff ((Memory.wf_iff m').mp h').1 hmem

/-- What a booted state holds: the image from address 0, zeros after it, the reset values elsewhere. -/
theorem boot_eq_some {image : List Byte} {s : State} (h : State.boot image = some s) :
    s = { State.reset with mem := s.mem } ∧ ∀ a, s.mem.read a = image[a]?.getD blankByte := by
  obtain ⟨hfits, rfl⟩ := launch_eq_some h
  have hlen : 0 + image.length ≤ Config.memSize := by
    rw [Nat.zero_add]
    exact ((imageFits_iff image).mp hfits).2
  exact ⟨rfl, fun a => by rw [Memory.read_load hlen, if_pos a.zero_le]; rfl⟩

/-- R33: the stack pointer apart, every register is 0 at reset. -/
theorem reset_reg {r : Reg} (h : r ≠ 7) : State.reset.reg r = 0 := by
  revert r
  decide

end Sys2Proof.Machine
end

section
/-! PROOF. The obligations of 10_state.md, each from the lemmas above. -/

namespace Sys2Proof.Machine

open Sys2Proof Sys2Proof.Machine.Claim

/-- Settles O22: every effect is built from operations that keep the invariant. -/
theorem stepKeepsInvariant : Obligations.StepKeepsInvariant := fun _ _ hi h => step_keeps_inv hi h

/-- Settles O10: the control transfers by their opcode, every other opcode by `step_pc_of_not_control`. -/
theorem pcIsWrittenInTheseWays : Obligations.PcIsWrittenInTheseWays := by
  refine ⟨rfl, fun s ir t hat h ht => ⟨step_pc_of_not_control hat h ht, ?_, ?_, ?_⟩, fun s t f h ht => ?_⟩
  · rintro (rfl | rfl | ⟨rfl, he⟩ | ⟨rfl, he⟩)
    · exact target_toNat (pc_of_call (effect_of_step_at_one lookup_call hat h ht) ht)
    · exact target_toNat (pc_of_jmp (effect_of_step_at_one lookup_jmp hat h ht) ht)
    · exact target_toNat ((pc_of_jeq (effect_of_step_at_one lookup_jeq hat h ht) ht).1 he)
    · exact target_toNat ((pc_of_jne (effect_of_step_at_one lookup_jne hat h ht) ht).1 he)
  · rintro rfl
    exact step_pc_of_ret hat h
  · rintro (⟨rfl, he⟩ | ⟨rfl, he⟩)
    · exact advance_two hat (by decide) ((pc_of_jeq (effect_of_step_at_one lookup_jeq hat h ht) ht).2 he)
    · exact advance_two hat (by decide) ((pc_of_jne (effect_of_step_at_one lookup_jne hat h ht) ht).2 he)
  · rw [step_eq_raise h ht, raise_pc]

/-- Settles O16: HALTED by `step_halted_iff`, FAULTED by `step_eq_raise`, and STATUS is unread. -/
theorem statusTransitions : Obligations.StatusTransitions := by
  refine ⟨rfl, fun s t h => ⟨step_halted_iff h, fun f => ⟨step_eq_raise h, ?_⟩⟩, fun s hs t h => ?_, fun i s st t h => ?_⟩
  · rintro rfl
    rfl
  · exact hs (running_of_step h)
  · obtain ⟨t', ht', st', rfl⟩ := unread_butStatus.exec ⟨st, rfl⟩ h
    exact ⟨_, ht', rfl⟩

/-- Settles O17: CMP's is the one effect that writes flags, and what it writes is a trichotomy. -/
theorem onlyCompareWritesFlags : Obligations.OnlyCompareWritesFlags := by
  refine ⟨fun s t h hf => ?_, fun a b ra rb s ha hb => ⟨_, exec_cmp s ha hb, ?_⟩⟩
  · cases step_summary h with
    | past _ h' | operandFault _ _ _ h' | unknown _ _ h' => exact absurd (h' ▸ rfl) hf
    | instr hc he => exact (he.flags.resolve_left hf) ▸ hc.atOpcode (running_of_step h)
  · obtain h | h | h := compareFlags_cases (s.reg ra) (s.reg rb) <;> simp [h]

/-- Settles O18: flags that agree on E are not told apart. -/
theorem lessAndGreaterAreUnread : Obligations.LessAndGreaterAreUnread := by
  intro s t l g h
  have hunread : Unread (ButFlags s.flags { s.flags with l := l, g := g }) := unread_butFlags rfl
  obtain ⟨t', ht', hrel⟩ := hunread.step (.kept rfl) rfl h
  refine ⟨t', ht', ?_⟩
  cases hrel with
  | same => exact ⟨rfl, rfl, .inl rfl⟩
  | kept hf => exact ⟨rfl, by rw [hf], .inr ⟨hf, rfl⟩⟩

/-- Settles O19: the writes, the reads, and the skip of an unknown opcode, which touches PC alone. -/
theorem registersReadAndWritten : Obligations.RegistersReadAndWritten := by
  refine ⟨fun i s t r h hw => (exec_effect h).reg_of_not_writes hw, fun i s t r v h _ hr => ?_, fun s ir t r v hat hir h => ?_⟩
  · obtain ⟨t', he, ht'⟩ := (exec_effect h).setReg_unread hr v
    exact ⟨t', exec_of_effect he, ht'⟩
  · have hl := (lookup_eq_none_iff_not_defined ir).mpr hir
    rw [step_at_unknown hat hl] at h
    cases h
    exact ⟨rfl, step_at_unknown (s := s.setReg r v) hat hl⟩

/-- Settles O21: `step_emits`, and OUT is unread. -/
theorem outputGrowsAndIsUnread : Obligations.OutputGrowsAndIsUnread := by
  refine ⟨rfl, fun s t h => ?_⟩
  obtain ⟨evs, hout, hev⟩ := step_emits h
  refine ⟨evs, hout, hev, fun o => ?_⟩
  have hrel : ButOut s.out o s { s with out := o } := ⟨[], by simp, by simp⟩
  obtain ⟨t', ht', evs', hout', rfl⟩ := (unread_butOut s.out o).step hrel rfl h
  obtain rfl : evs = evs' := List.append_cancel_left (hout.symm.trans hout')
  exact ht'

/-- Settles O24: loading keeps the canonical form, the rest of the invariant is as at reset. -/
theorem launchMeetsInvariant : Obligations.LaunchMeetsInvariant := fun _ _ _ _ hf h => launch_inv hf h

/-- Settles O29: the entries are determined by the contents, and their order by the addresses. -/
theorem canonicalMemoriesAreEqual : Obligations.CanonicalMemoriesAreEqual := fun _ _ h h' hread =>
  Memory.eq_of_read_eq h h' hread

/-- Settles O23: the base case of the invariant. -/
theorem resetMeetsInvariant : Obligations.ResetMeetsInvariant := reset_inv

/-- Settles O26: the table by evaluation, the image by `boot_eq_some`. -/
theorem resetValuesAsTabulated : Obligations.ResetValuesAsTabulated := by
  refine ⟨rfl, rfl, fun _ => reset_reg, rfl, rfl, rfl, fun _ => rfl, fun image s h => ?_⟩
  obtain ⟨hs, hread⟩ := boot_eq_some h
  exact ⟨hs, fun a v hv => by rw [hread, hv]; rfl, fun a ha => by rw [hread, ha]; rfl⟩

end Sys2Proof.Machine
end

section
/-! PROOF. Memory during a run (R51, R52, R63, R65): the two accesses, the bytes that the next step decodes, and what a
step can write. -/

namespace Sys2Proof

/-- Bytes that decode begin with the encoding of what they decode to (R84). -/
theorem eq_encode_append_of_decode {bs : List Byte} {i : Instr} {rest : List Byte} (h : decode bs = .ok (i, rest)) :
    bs = encode i ++ rest := by
  obtain ⟨ir, hl, rfl⟩ | ⟨ir, mk, a, hl, rfl, rfl⟩ | ⟨ir, mk, a, b, hl, rfl, rfl⟩ := decode_ok_cases h
  · rw [encode_bare hl]; rfl
  · rw [encode_one hl]; rfl
  · rw [encode_two hl]; rfl

end Sys2Proof

namespace Sys2Proof.Machine

open Sys2Proof Sys2Proof.Machine.Claim

section Facts

variable {s t : State} {a n : Nat} {v : Byte} {i : Instr} {rest : List Byte}

/-! ### A write, inverted (R52) -/

theorem memWrite_eq_ok (h : memWrite s a v = .ok t) : a < 256 ∧ t = { s with mem := s.mem.write a v } := by
  by_cases ha : a < 256
  · rw [memWrite_ok ha] at h
    exact ⟨ha, (Except.ok.inj h).symm⟩
  · rw [memWrite_fault (by omega)] at h
    cases h

/-! ### The bytes that the next step decodes (R63, R101) -/

/-- Bytes from PC on, within the 256 cells, that begin with an instruction's encoding. -/
theorem codeAt_of_prefix (hn : s.pc.toNat + n ≤ 256) (h : encode i <+: (List.range n).map (operandAt s)) :
    CodeAt s i := by
  have hlen : (encode i).length ≤ n := by simpa using h.length_le
  refine ⟨by omega, ?_⟩
  rw [List.prefix_iff_eq_take, ← List.map_take, List.take_range, Nat.min_eq_left hlen] at h
  exact h

/-- A running engine runs the instruction that the bytes from PC on decode to. -/
theorem step_of_decode (hs : s.status = .running) (hn : s.pc.toNat + n ≤ 256)
    (h : decode ((List.range n).map (operandAt s)) = .ok (i, rest)) : step s = exec i s :=
  step_of_codeAt hs (codeAt_of_prefix hn (eq_encode_append_of_decode h ▸ List.prefix_append _ _))

/-- A write to the cell at PC replaces the first of the bytes from PC on. -/
theorem bytes_write_pc (s : State) (v : Byte) (n : Nat) :
    (List.range (n + 1)).map (operandAt { s with mem := s.mem.write s.pc.toNat v }) =
      v :: (List.range n).map (fun k => operandAt s (k + 1)) := by
  rw [List.range_succ_eq_map, List.map_cons, List.map_map]
  refine congrArg₂ List.cons (Memory.read_write_same _ _ _) (List.map_congr_left fun k _ => ?_)
  exact Memory.read_write_ne (c := s.pc.toNat + (k + 1)) (by omega)

/-! ### What a step can write (R65) -/

/-- SP - 1 as the address of a push (R161). -/
theorem sp_sub_one_toNat (s : State) : (s.reg spReg - 1).toNat = pushAddr s := sub_one_toNat _

/-- Only PUSH and CALL write memory, and they write one cell. -/
theorem Effect.mem (he : Effect i s t) :
    t.mem = s.mem ∨ (i.opcode = 0x45 ∨ i.opcode = 0x50) ∧ ∃ v, t.mem = s.mem.write (pushAddr s) v := by
  rw [← sp_sub_one_toNat]
  cases he with
  | push => exact .inr ⟨.inl rfl, _, pushed_mem _ _⟩
  | call => exact .inr ⟨.inr rfl, _, called_mem _⟩
  | jeq | jne => exact .inl (jumpIf_mem _ _ _ _)
  | _ => exact .inl rfl

/-- The same of a step, by the opcode at PC. -/
theorem step_mem (h : step s = .next t) :
    t.mem = s.mem ∨ (atOpcode s 0x45 ∨ atOpcode s 0x50) ∧ ∃ v, t.mem = s.mem.write (pushAddr s) v := by
  cases step_summary h with
  | past _ h' | operandFault _ _ _ h' | unknown _ _ h' => exact .inl (h' ▸ rfl)
  | instr hc he =>
    have hat := hc.atOpcode (running_of_step h)
    obtain hmem | ⟨hop | hop, hwrite⟩ := he.mem
    · exact .inl hmem
    · exact .inr ⟨.inl (hop ▸ hat), hwrite⟩
    · exact .inr ⟨.inr (hop ▸ hat), hwrite⟩

end Facts

end Sys2Proof.Machine
end

section
/-! PROOF. The obligations of 20_memory.md, each from the lemmas above. -/

namespace Sys2Proof.Machine

open Sys2Proof Sys2Proof.Machine.Claim

/-- Settles O11: the bytes from PC on after the write are the ones that decode. -/
theorem fetchSeesStores : Obligations.FetchSeesStores := by
  intro s t v i rest n hs hw hn hd
  obtain ⟨-, rfl⟩ := memWrite_eq_ok hw
  rw [← bytes_write_pc] at hd
  exact step_of_decode hs (by dsimp only; omega) hd

/-- Settles O20: a byte that changes is the one cell that `step_mem` lets a step write. -/
theorem onlyPushAndCallWriteMemory : Obligations.OnlyPushAndCallWriteMemory := by
  intro s t a h hne
  obtain hmem | ⟨hat, v, hmem⟩ := step_mem h
  · exact absurd (by rw [hmem]) hne
  · exact ⟨hat, by_contra fun ha => hne (by rw [hmem, Memory.read_write_ne ha])⟩

/-- Settles O28: inside and outside the 256 cells, by the rules of the two accesses. -/
theorem memoryPrimitives : Obligations.MemoryPrimitives := by
  intro s addr
  refine ⟨fun h => memRead_ok (by omega) s, fun h => memRead_fault h s, fun v h => ?_, fun v h => memWrite_fault h s v⟩
  have hlt : addr < 256 := by omega
  refine ⟨_, memWrite_ok hlt s v, rfl, ?_, fun a ha => Memory.read_write_ne ha, ?_⟩
  · rw [memRead_ok hlt, Memory.read_write_same]
  · rw [memWrite_ok hlt, Memory.write_write]

end Sys2Proof.Machine
end

section
/-! PROOF. The encoding (R70, R72, R74, R84): the decoder on encoded bytes, the opcode byte's bits, and the bytes that are
refused as an unknown opcode. -/

namespace Sys2Proof

open Sys2Proof.Machine.Claim

/-! ### The decoder on encoded bytes (R84) -/

/-- The converse of `eq_encode_append_of_decode`: every instruction's row of the opcode map is the one its opcode selects. -/
theorem decode_encode_append (i : Instr) (rest : List Byte) : decode (encode i ++ rest) = .ok (i, rest) := by
  cases i with
  | hlt | ret => exact decode_bare rest rfl
  | prn a | not a | push a | pop a | call a | jmp a | jeq a | jne a => exact decode_one a rest rfl
  | ldi a b | add a b | mul a b | mod a b | and a b | or a b | xor a b | shl a b | shr a b | cmp a b =>
    exact decode_two a b rest rfl

theorem decode_encode (i : Instr) : decode (encode i) = .ok (i, []) := by
  rw [← List.append_nil (encode i), decode_encode_append]

/-! ### The bits of the opcode byte (R70, R74) -/

/-- The three properties of every row of R74: bits 7:6 count the bytes after the opcode, bit 5 marks the rows that the
source routes through the ALU, bit 4 marks the control-transfer set. -/
theorem opcode_bits (i : Instr) :
    (encode i).length = i.opcode.toNat / 64 + 1 ∧ i.opcode.getLsbD 5 = isAlu i ∧ i.opcode.getLsbD 4 = isControl i := by
  cases i <;> simp only [Instr.opcode, encode, List.headD_cons, List.length_cons, List.length_nil, isAlu, isControl] <;>
    decide

/-! ### Unknown opcodes (R77) -/

/-- A byte that selects a row is never refused as unknown, whether or not its operand bytes follow. -/
theorem decode_eq_unknownOpcode_iff (ir : Byte) (rest : List Byte) :
    decode (ir :: rest) = .error (.unknownOpcode ir) ↔ lookupOpcode ir = none := by
  rcases hl : lookupOpcode ir with _ | (i | mk | mk)
  · simp [decode, hl]
  · simp [decode_bare rest hl]
  · cases rest with
    | nil => simp [decode, hl]
    | cons a rest => simp [decode_one a rest hl]
  · rcases rest with _ | ⟨a, _ | ⟨b, rest⟩⟩
    · simp [decode, hl]
    · simp [decode, hl]
    · simp [decode_two a b rest hl]

end Sys2Proof
end

section
/-! PROOF. The obligations of 30_encoding.md, each from the lemmas above. -/

namespace Sys2Proof.Machine

open Sys2Proof Sys2Proof.Machine.Claim

/-- Settles O1: decoder and encoder are inverse to each other, one direction each. -/
theorem decodeExactlyInvertsEncode : Obligations.DecodeExactlyInvertsEncode := by
  refine fun bs i rest => ⟨eq_encode_append_of_decode, ?_⟩
  rintro rfl
  exact decode_encode_append i rest

/-- Settles O8: the step at an unknown opcode is the PC advance alone, and from 0xC0 up bits 7:6 are 3. -/
theorem unknownOpcodeIsSkipped : Obligations.UnknownOpcodeIsSkipped := by
  refine ⟨rfl, by decide, by decide, fun s ir hat hir => ?_⟩
  have hl : lookupOpcode ir = none := (lookup_eq_none_iff_not_defined ir).mpr hir
  have ⟨_, hle, _⟩ := hat
  have hpc : (s.advance ir).pc.toNat = s.pc.toNat + 1 + ir.toNat / 64 := by rw [advance_pc_toNat hle, operandCount_eq]
  have hlt := ir.isLt
  exact ⟨_, step_at_unknown hat hl, rfl, hpc, fun h => by omega⟩

/-- Settles O2: the rows by the encoder's equations, the bits row by row, and the refusal by the opcode map. -/
theorem opcodeMapAsTabulated : Obligations.OpcodeMapAsTabulated := by
  refine ⟨fun a b => ?_, fun i opcode operands h => ?_, fun ir rest => ?_⟩
  · and_intros <;> rfl
  · obtain ⟨hlen, hbits⟩ := opcode_bits i
    obtain rfl : i.opcode = opcode := by rw [Instr.opcode, h, List.headD_cons]
    rw [h, List.length_cons] at hlen
    exact ⟨by omega, hbits⟩
  · rw [decode_eq_unknownOpcode_iff, lookup_eq_none_iff_not_defined]

/-- Settles O3: each word is the encoding of its instruction. -/
theorem exampleWordsDecode : Obligations.ExampleWordsDecode :=
  ⟨decode_encode (.ldi 0 8), decode_encode (.mod 0 1), decode_encode (.push 0), decode_encode (.call 1),
    decode_encode .ret, decode_encode .hlt⟩

end Sys2Proof.Machine
end

section
/-! PROOF. The dispatcher (R100 to R105): the step at a defined opcode by where its operand bytes stand, STATUS and run
control. -/

namespace Sys2Proof.Machine

open Sys2Proof Sys2Proof.Machine.Claim

section Facts

variable {i : Instr} {s t : State} {ir b : Byte} {f : Form}

/-! ### Operand fetch at a defined opcode (R103) -/

theorem lookup_of_defined (h : ir.toNat ∈ definedOpcodes) : ∃ f, lookupOpcode ir = some f :=
  Option.ne_none_iff_exists'.mp fun hl => (lookup_eq_none_iff_not_defined ir).mp hl h

theorem defined_of_lookup (hl : lookupOpcode ir = some f) : ir.toNat ∈ definedOpcodes :=
  by_contra fun h => nomatch hl.symm.trans ((lookup_eq_none_iff_not_defined ir).mpr h)

/-- An operand byte past the last cell faults at address 256, the lowest one out of range. -/
theorem step_at_operandFault (hat : atOpcode s ir) (hl : lookupOpcode ir = some f) (hn : 255 < s.pc.toNat + f.arity) :
    step s = .next (raise (.memoryFault 256) s) := by
  obtain ⟨hs, hpc, rfl⟩ := hat
  cases f with
  | bare i => simp only [Form.arity] at hn; omega
  | one mk => exact step_of_fetch_error hs (fetch_one_fault (by simp only [Form.arity] at hn; omega) hl)
  | two mk => exact step_of_fetch_error hs (fetch_two_fault (by simp only [Form.arity] at hn; omega) hl)

/-- Where the operand bytes that a defined opcode declares fit, an instruction's encoding stands at PC. -/
theorem exists_codeAt (hat : atOpcode s ir) (hl : lookupOpcode ir = some f) (hn : s.pc.toNat + f.arity ≤ 255) :
    ∃ i, CodeAt s i := by
  obtain ⟨-, -, rfl⟩ := hat
  cases f with
  | bare i => exact ⟨i, codeAt_bare (Nat.lt_succ_of_le hn) hl⟩
  | one mk => exact ⟨_, codeAt_one (Nat.lt_succ_of_le hn) hl⟩
  | two mk => exact ⟨_, codeAt_two (Nat.lt_succ_of_le hn) hl⟩

/-- The encoding at PC is the opcode byte and as many bytes after it as the opcode declares. -/
theorem CodeAt.encode_eq (hc : CodeAt s i) (hat : Claim.atOpcode s ir) :
    encode i = (List.range (1 + ir.toNat / 64)).map (operandAt s) := by
  obtain ⟨hs, -, rfl⟩ := hat
  have hop : s.mem.read s.pc.toNat = i.opcode := (hc.atOpcode hs).2.2
  rw [hop, Nat.add_comm, ← (opcode_bits i).1]
  exact hc.bytes

/-! ### Register operands (R73, R105) -/

theorem find_badOperand_eq_none (h : i.wellFormed = true) :
    i.regOperands.find? (fun r => decide (7 < r.toNat)) = none := by
  simp only [Instr.wellFormed, List.all_eq_true, isRegIndex, decide_eq_true_eq] at h
  rw [List.find?_eq_none]
  intro r hr
  have := h r hr
  simp only [decide_eq_true_eq]
  omega

/-- Only a bad register operand byte makes an instruction set RegisterIndexFault. -/
theorem Effect.status_of_registerIndexFault (he : Effect i s t) (hw : i.wellFormed = true)
    (ht : t.status = .faulted (.registerIndexFault b)) : t.status = s.status := by
  cases he with
  | badOperand hf => exact nomatch hf.symm.trans (find_badOperand_eq_none hw)
  | returnAddress | hlt | modHalt => cases ht
  | jeq | jne => exact jumpIf_status _ _ _ _
  | _ => rfl

/-! ### Run control (R100) -/

/-- Where there is no step, a run stays. -/
theorem freeRun_of_not_running (hs : s.status ≠ .running) (n : Nat) : freeRun n s = s := by
  obtain ⟨r, hr⟩ := step_of_not_running hs
  cases n with
  | zero => rfl
  | succ n => rw [freeRun, hr]

/-- A state that steps to itself is never left. -/
theorem freeRun_of_step_self (h : step s = .next s) (n : Nat) : freeRun n s = s := by
  induction n with
  | zero => rfl
  | succ n ih => rw [freeRun, h]; exact ih

end Facts

end Sys2Proof.Machine
end

section
/-! PROOF. The model simulates the machine of R101 (40_dispatch.md): what each state operation is on the machine's side, the
handlers by the effect they have, and the stages of the step. -/

namespace Sys2Proof.Machine

open Sys2Proof Sys2Proof.Machine.Claim

/-! ### State operations read as the machine's (R8) -/

section Ops

variable (s : State) (r : Reg) (v : Byte) (ev : Event) (f : RuntimeFault) (a : Nat)

theorem pseudoOf_x : (pseudoOf s).x r = (s.reg r).toNat := dif_pos r.isLt

theorem pseudoOf_m : (pseudoOf s).m a = (s.mem.read a).toNat := rfl

theorem ofNat_pseudoOf_x : BitVec.ofNat 8 ((pseudoOf s).x r) = s.reg r := by
  rw [pseudoOf_x, BitVec.ofNat_toNat, BitVec.setWidth_eq]

theorem pseudoOf_x_eq_zero_iff : (pseudoOf s).x r = 0 ↔ s.reg r = 0 := by
  rw [pseudoOf_x, BitVec.toNat_eq]
  rfl

theorem pseudoOf_emit : pseudoOf (s.emit ev) = { pseudoOf s with out := s.out ++ [ev] } := rfl

theorem pseudoOf_raise : pseudoOf (raise f s) = { pseudoOf s with status := .faulted f } := rfl

theorem pseudoOf_setReg : pseudoOf (s.setReg r v) = { pseudoOf s with x := put (pseudoOf s).x r v.toNat } := by
  have hx : (pseudoOf (s.setReg r v)).x = put (pseudoOf s).x r v.toNat := by
    funext i
    by_cases hi : i < 8
    · simp only [pseudoOf, put, dif_pos hi, reg_setReg, Fin.ext_iff]
      split <;> rfl
    · have hir : i ≠ r := fun h => hi (h ▸ r.isLt)
      simp only [pseudoOf, put, dif_neg hi, if_neg hir]
  rw [← hx]
  rfl

theorem pseudoOf_write :
    pseudoOf { s with mem := s.mem.write a v } = { pseudoOf s with m := put (pseudoOf s).m a v.toNat } := by
  have hm : (pseudoOf { s with mem := s.mem.write a v }).m = put (pseudoOf s).m a v.toNat := by
    funext c
    simp only [pseudoOf, put, Memory.read_write]
    split <;> rfl
  rw [← hm]
  rfl

theorem pseudoOf_jump : pseudoOf (s.jump v) = { pseudoOf s with pc := v.toNat } := by
  rw [← zext9_toNat v]
  rfl

theorem pseudoOf_popSp :
    pseudoOf s.popSp = { pseudoOf s with x := put (pseudoOf s).x 7 (((pseudoOf s).x 7 + 1) % 256) } := by
  rw [State.popSp, pseudoOf_setReg, add_one_toNat, ← pseudoOf_x]
  rfl

/-- The two statements of a push on the machine of R101 (R161). -/
def pseudoPush (r : Nat) (p : Pseudo) : Pseudo :=
  let x := put p.x 7 ((p.x 7 + 255) % 256)
  { p with x := x, m := put p.m (x 7) (x r) }

/-- A push as two state operations: the stack pointer is written, then the cell it addresses. -/
theorem pushed_eq_write :
    let s₁ := s.setReg spReg (s.reg spReg - 1)
    pushed s r = { s₁ with mem := s₁.mem.write (s₁.reg spReg).toNat (s₁.reg r) } := by
  dsimp only
  rw [reg_setReg_same]
  rfl

theorem pseudoOf_pushed : pseudoOf (pushed s r) = pseudoPush r (pseudoOf s) := by
  rw [pushed_eq_write, pseudoOf_write, ← pseudoOf_x, ← pseudoOf_x, pseudoOf_setReg, sub_one_toNat, ← pseudoOf_x]
  rfl

end Ops

section Advance

variable {s : State} (hpc : s.pc.toNat ≤ 255)
include hpc

theorem pseudoOf_advance (ir : Byte) :
    pseudoOf (s.advance ir) = { pseudoOf s with pc := s.pc.toNat + 1 + ir.toNat / 64 } := by
  rw [← operandCount_eq, ← advance_pc_toNat hpc]
  rfl

theorem pseudoOf_setReg_advance (r : Reg) (v ir : Byte) :
    pseudoOf ((s.setReg r v).advance ir) =
      { pseudoOf s with x := put (pseudoOf s).x r v.toNat, pc := s.pc.toNat + 1 + ir.toNat / 64 } := by
  rw [pseudoOf_advance (s := s.setReg r v) hpc, pseudoOf_setReg]
  rfl

theorem pseudoOf_jumpIf (c : Bool) (r : Reg) {ir : Byte} (hir : ir.toNat / 64 = 1) :
    pseudoOf (jumpIf c ir r s) = { pseudoOf s with pc := if c then (pseudoOf s).x r else s.pc.toNat + 2 } := by
  cases c with
  | true => rw [jumpIf_true, pseudoOf_jump, ← pseudoOf_x]; rfl
  | false => rw [jumpIf_false, pseudoOf_advance hpc, hir]; rfl

end Advance

theorem pseudoOf_called {s : State} (h : s.pc.toNat + 2 < 256) :
    pseudoOf (called s) = pseudoPush 6 { pseudoOf s with x := put (pseudoOf s).x 6 (s.pc.toNat + 2) } := by
  rw [called, pseudoOf_pushed, pseudoOf_setReg, BitVec.toNat_ofNat, Nat.mod_eq_of_lt h]
  rfl

/-! ### The ALU's functions as numbers (R137 to R139) -/

theorem aluNot_toNat (a : Byte) : (aluNot a).toNat = 255 - a.toNat := by
  rw [aluNot, show (0xFF : Byte) = BitVec.allOnes 8 from rfl, BitVec.xor_allOnes, BitVec.toNat_not]

theorem aluShl_toNat (a b : Byte) : (aluShl a b).toNat = a.toNat * 2 ^ b.toNat % 256 := by
  rw [aluShl, BitVec.toNat_shiftLeft, Nat.shiftLeft_eq]

theorem aluShr_toNat (a b : Byte) : (aluShr a b).toNat = a.toNat / 2 ^ b.toNat := by
  rw [aluShr, BitVec.toNat_ushiftRight, Nat.shiftRight_eq_div_pow]

/-! ### Handlers -/

section Handlers

variable {i : Instr} {s t : State} {a b : Byte} {ra rb : Reg}

/-- The number of the register that an operand byte at PC names. -/
theorem CodeAt.operand_toNat (hc : CodeAt s i) {k : Nat} (h : (encode i)[k]? = some a) (ha : a.toNat = ra.val) :
    (operandAt s k).toNat = ra.val := by
  rw [(hc.byte h).1, ha]

/-- A two-operand ALU operation that writes its first register (R130). -/
theorem CodeAt.pseudoOf_alu (hc : CodeAt s i) {f : Byte → Byte → Byte} {ir : Byte}
    (h₁ : (encode i)[1]? = some a) (ha : a.toNat = ra.val) (h₂ : (encode i)[2]? = some b) (hb : b.toNat = rb.val)
    (hf : ∀ a b, (f a b).toNat = pseudoAlu ir.toNat a.toNat b.toNat) (hir : ir.toNat / 64 = 2) :
    pseudoOf ((s.setReg ra (f (s.reg ra) (s.reg rb))).advance ir) =
      { pseudoOf s with
        x := put (pseudoOf s).x (operandAt s 1).toNat
          (pseudoAlu ir.toNat ((pseudoOf s).x (operandAt s 1).toNat) ((pseudoOf s).x (operandAt s 2).toNat)),
        pc := s.pc.toNat + 3 } := by
  rw [hc.operand_toNat h₁ ha, hc.operand_toNat h₂ hb, pseudoOf_setReg_advance hc.pc_le, hf, hir, pseudoOf_x, pseudoOf_x]

/-- Every effect but the operand check's fault is the handler of the opcode at PC. -/
theorem Effect.pseudoOf_eq_handler (he : Effect i s t) (hc : CodeAt s i)
    (hgood : i.regOperands.find? (fun r => decide (7 < r.toNat)) = none) :
    pseudoOf t = pseudoHandler i.opcode.toNat (operandAt s 1).toNat (operandAt s 2).toNat (pseudoOf s) := by
  have hpc := hc.pc_le
  cases he with
  | badOperand hf => exact nomatch hf.symm.trans hgood
  | returnAddress _ h => exact (if_pos (by exact h)).symm
  | hlt => exact pseudoOf_advance (s := s.halt) hpc _
  | ldi ha =>
    rw [hc.operand_toNat (k := 1) rfl ha, (hc.byte (k := 2) rfl).1]
    exact pseudoOf_setReg_advance hpc _ _ _
  | prn ha =>
    rw [hc.operand_toNat (k := 1) rfl ha, pseudoOf_advance (s := s.emit _) hpc, pseudoOf_emit, ← ofNat_pseudoOf_x]
    rfl
  | add ha hb => exact hc.pseudoOf_alu rfl ha rfl hb BitVec.toNat_add rfl
  | mul ha hb => exact hc.pseudoOf_alu rfl ha rfl hb BitVec.toNat_mul rfl
  | and ha hb => exact hc.pseudoOf_alu rfl ha rfl hb BitVec.toNat_and rfl
  | or ha hb => exact hc.pseudoOf_alu rfl ha rfl hb BitVec.toNat_or rfl
  | xor ha hb => exact hc.pseudoOf_alu rfl ha rfl hb BitVec.toNat_xor rfl
  | shl ha hb => exact hc.pseudoOf_alu rfl ha rfl hb aluShl_toNat rfl
  | shr ha hb => exact hc.pseudoOf_alu rfl ha rfl hb aluShr_toNat rfl
  | not ha =>
    rw [hc.operand_toNat (k := 1) rfl ha, pseudoOf_setReg_advance hpc, aluNot_toNat, ← pseudoOf_x]
    rfl
  | modHalt _ hb hz =>
    rw [pseudoOf_advance (s := (s.emit _).halt) hpc, hc.operand_toNat (k := 2) rfl hb]
    exact (if_pos ((pseudoOf_x_eq_zero_iff _ _).mpr hz)).symm
  | mod ha hb hz =>
    rw [pseudoOf_setReg_advance hpc, hc.operand_toNat (k := 1) rfl ha, hc.operand_toNat (k := 2) rfl hb, aluMod,
      BitVec.toNat_umod, ← pseudoOf_x, ← pseudoOf_x]
    exact (if_neg (hz ∘ (pseudoOf_x_eq_zero_iff _ _).mp)).symm
  | cmp ha hb =>
    rw [hc.operand_toNat (k := 1) rfl ha, hc.operand_toNat (k := 2) rfl hb, pseudoOf_advance (by exact hpc),
      compareFlags, ← pseudoOf_x, ← pseudoOf_x]
    rfl
  | push ha =>
    rw [hc.operand_toNat (k := 1) rfl ha, pseudoOf_advance (s := pushed s _) hpc, pseudoOf_pushed]
    rfl
  | pop ha =>
    rw [hc.operand_toNat (k := 1) rfl ha, pseudoOf_advance (s := (s.setReg _ _).popSp) hpc, pseudoOf_popSp,
      pseudoOf_setReg, ← pseudoOf_m, ← pseudoOf_x]
    rfl
  | call ha h =>
    rw [hc.operand_toNat (k := 1) rfl ha, pseudoOf_jump, ← pseudoOf_x, pseudoOf_called h]
    exact (if_neg (by exact Nat.not_lt.mpr (Nat.le_of_lt_succ h))).symm
  | ret =>
    rw [pseudoOf_popSp, pseudoOf_jump, ← pseudoOf_m, ← pseudoOf_x]
    rfl
  | jmp ha =>
    rw [hc.operand_toNat (k := 1) rfl ha, pseudoOf_jump, ← pseudoOf_x]
    rfl
  | jeq ha =>
    rw [hc.operand_toNat (k := 1) rfl ha]
    exact pseudoOf_jumpIf hpc _ _ rfl
  | @jne _ _ ra ha =>
    rw [hc.operand_toNat (k := 1) rfl ha, pseudoOf_jumpIf hpc _ _ rfl]
    change _ = { pseudoOf s with pc := if s.flags.e then s.pc.toNat + 2 else (pseudoOf s).x ra }
    cases s.flags.e <;> rfl

end Handlers

/-! ### The stages of the step (R101 to R105) -/

section Stages

variable {p : Pseudo}

theorem pseudoStep_past (h : 255 < p.pc) : pseudoStep p = { p with status := .faulted (.memoryFault p.pc) } :=
  if_pos h

theorem pseudoStep_unknown (h : p.pc ≤ 255) (hir : p.m p.pc ∉ definedOpcodes) :
    pseudoStep p = { p with pc := p.pc + 1 + p.m p.pc / 64 } := by
  rw [pseudoStep, if_neg (Nat.not_lt.mpr h)]
  exact if_pos hir

theorem operandCount_of_defined : ∀ ir ∈ definedOpcodes, ir / 64 ≤ 2 := by decide

theorem pseudoStep_operandFault (h : p.pc ≤ 255) (hir : p.m p.pc ∈ definedOpcodes) (hn : 255 < p.pc + p.m p.pc / 64) :
    pseudoStep p = { p with status := .faulted (.memoryFault 256) } := by
  have := operandCount_of_defined _ hir
  rw [pseudoStep, if_neg (Nat.not_lt.mpr h)]
  dsimp only
  rw [if_neg (not_not.mpr hir)]
  by_cases h₁ : p.pc + 1 > 255
  · rw [if_pos ⟨by omega, h₁⟩, show p.pc + 1 = 256 by omega]
  · rw [if_neg (h₁ ∘ And.right), if_pos (by omega), show p.pc + 2 = 256 by omega]

/-- Where the operand bytes are in range, the first one that names no register faults, and without one the handler
runs. -/
theorem pseudoStep_validated (h : p.pc ≤ 255) (hir : p.m p.pc ∈ definedOpcodes) (hn : p.pc + p.m p.pc / 64 ≤ 255) :
    (∀ r, (regops (p.m p.pc) (p.m (p.pc + 1)) (p.m (p.pc + 2))).find? (fun r => r > 7) = some r →
      pseudoStep p = { p with status := .faulted (.registerIndexFault (BitVec.ofNat 8 r)) }) ∧
    ((regops (p.m p.pc) (p.m (p.pc + 1)) (p.m (p.pc + 2))).find? (fun r => r > 7) = none →
      pseudoStep p = pseudoHandler (p.m p.pc) (p.m (p.pc + 1)) (p.m (p.pc + 2)) p) := by
  rw [pseudoStep, if_neg (Nat.not_lt.mpr h)]
  dsimp only
  rw [if_neg (not_not.mpr hir), if_neg (by omega), if_neg (by omega)]
  exact ⟨fun r hr => by rw [hr], fun hr => by rw [hr]⟩

end Stages

/-! ### The instruction at PC on the machine of R101 -/

theorem opcode_mem_definedOpcodes (i : Instr) : i.opcode.toNat ∈ definedOpcodes := by
  cases i <;> simp only [Instr.opcode, encode, List.headD_cons] <;> decide

section Code

variable {i : Instr} {s t : State} (hc : CodeAt s i)
include hc

theorem CodeAt.pseudo_opcode : (pseudoOf s).m (pseudoOf s).pc = i.opcode.toNat :=
  congrArg BitVec.toNat (hc.byte (encode_getElem_zero i)).1

theorem CodeAt.pseudo_fits : s.pc.toNat + i.opcode.toNat / 64 ≤ 255 := by
  have hfits := hc.fits
  rw [(opcode_bits i).1] at hfits
  omega

/-- The formats of R72 by number name the register operand bytes of the instruction at PC. -/
theorem CodeAt.regops_eq :
    regops i.opcode.toNat (operandAt s 1).toNat (operandAt s 2).toNat = i.regOperands.map BitVec.toNat := by
  cases i with
  | hlt | ret => rfl
  | ldi | prn | not | push | pop | call | jmp | jeq | jne => rw [(hc.byte (k := 1) rfl).1]; rfl
  | add | mul | mod | and | or | xor | shl | shr | cmp =>
    rw [(hc.byte (k := 1) rfl).1, (hc.byte (k := 2) rfl).1]; rfl

/-- Operand validation finds the same byte. -/
theorem CodeAt.find_regops :
    (regops i.opcode.toNat (operandAt s 1).toNat (operandAt s 2).toNat).find? (fun r => r > 7) =
      (i.regOperands.find? (fun r => decide (7 < r.toNat))).map BitVec.toNat := by
  rw [hc.regops_eq, List.find?_map]
  rfl

/-- An instruction's effect is what the machine of R101 does from the bytes at PC. -/
theorem Effect.pseudoOf_eq_step (he : Effect i s t) : pseudoOf t = pseudoStep (pseudoOf s) := by
  have hdef : (pseudoOf s).m (pseudoOf s).pc ∈ definedOpcodes := hc.pseudo_opcode ▸ opcode_mem_definedOpcodes i
  have hfits : (pseudoOf s).pc + (pseudoOf s).m (pseudoOf s).pc / 64 ≤ 255 := hc.pseudo_opcode ▸ hc.pseudo_fits
  have hfind := hc.find_regops
  rw [← hc.pseudo_opcode] at hfind
  obtain ⟨hbad, hgood⟩ := pseudoStep_validated (p := pseudoOf s) hc.pc_le hdef hfits
  cases hops : i.regOperands.find? (fun r => decide (7 < r.toNat)) with
  | none =>
    rw [hops] at hfind
    rw [hgood hfind, he.pseudoOf_eq_handler hc hops, hc.pseudo_opcode]
    rfl
  | some b =>
    rw [hops] at hfind
    cases (exec_of_effect he).symm.trans (exec_badOperand hops)
    rw [hbad _ hfind, BitVec.ofNat_toNat, BitVec.setWidth_eq]
    exact pseudoOf_raise _ _

end Code

end Sys2Proof.Machine
end

section
/-! PROOF. The obligations of 40_dispatch.md, each from the lemmas above. -/

namespace Sys2Proof.Machine

open Sys2Proof Sys2Proof.Machine.Claim

/-- Settles O12: stage by stage, each path of the model's step is the path of R101's text. -/
theorem stepMatchesPseudocode : Obligations.StepMatchesPseudocode := by
  intro s hs
  obtain ⟨t, ht⟩ := step_exists hs
  refine ⟨t, ht, ?_⟩
  cases step_summary ht with
  | past h h' => exact h' ▸ (pseudoStep_past (p := pseudoOf s) h).symm
  | unknown h hl h' =>
    have hpc : s.pc.toNat ≤ 255 := Nat.le_of_lt_succ h
    rw [h', pseudoOf_advance hpc, pseudoStep_unknown hpc ((lookup_eq_none_iff_not_defined _).mp hl)]
    rfl
  | operandFault h hl hn h' =>
    rw [arity_of_lookup hl, operandCount_eq] at hn
    exact h' ▸ (pseudoStep_operandFault (p := pseudoOf s) (Nat.le_of_lt_succ h) (defined_of_lookup hl) hn).symm
  | instr hc he => exact he.pseudoOf_eq_step hc

/-- Settles O5: `step_exists` and its converse; a state without a step and a state that steps to itself are both kept. -/
theorem stepsExactlyWhileRunning : Obligations.StepsExactlyWhileRunning := by
  refine ⟨fun s => ⟨fun ⟨t, h⟩ => running_of_step h, step_exists⟩, fun s n hs => freeRun_of_not_running hs n, ?_⟩
  obtain ⟨s, hboot, hself⟩ : ∃ s, State.boot [0x54, 0x00] = some s ∧ step s = .next s := ⟨_, rfl, rfl⟩
  refine ⟨s, hboot, fun n => ?_⟩
  rw [freeRun_of_step_self hself]
  exact running_of_step hself

/-- Settles O7: fault, fetch and skip by the form that the opcode selects. -/
theorem operandFetchIsLazy : Obligations.OperandFetchIsLazy := by
  intro s ir hat
  refine ⟨fun hdef => ?_, fun hdef => ?_⟩
  · obtain ⟨f, hl⟩ := lookup_of_defined hdef
    have hn : f.arity = ir.toNat / 64 := (arity_of_lookup hl).trans (operandCount_eq ir)
    have hpc : s.pc.toNat ≤ 255 := hat.2.1
    refine ⟨fun h₁ h₂ => ?_, fun h₁ h₂ h₃ => ?_, fun h => ?_⟩
    · rw [show s.pc.toNat + 1 = 256 by omega]
      exact step_at_operandFault hat hl (by omega)
    · rw [show s.pc.toNat + 2 = 256 by omega]
      exact step_at_operandFault hat hl (by omega)
    · obtain ⟨i, hc⟩ := exists_codeAt hat hl (hn ▸ h)
      exact ⟨i, hc.encode_eq hat, step_of_codeAt hat.1 hc⟩
  · exact ⟨_, step_at_unknown hat ((lookup_eq_none_iff_not_defined ir).mpr hdef), hat.1⟩

/-- Settles O9: the operand check precedes every effect, and nothing else sets that status. -/
theorem registerIndexValidated : Obligations.RegisterIndexValidated := fun _ _ =>
  ⟨fun _ hf => exec_badOperand hf, fun hw _ _ h ht => (exec_effect h).status_of_registerIndexFault hw ht⟩

/-- Settles O4: the bytes that decode are the instruction's encoding, and the bytes at PC decide the step. -/
theorem stepRunsDecodedInstruction : Obligations.StepRunsDecodedInstruction := fun _ _ _ _ hs hn h =>
  step_of_decode hs hn h

/-- Settles O6: the opcode fetch faults, and fault entry keeps PC. -/
theorem fetchPastTopFaults : Obligations.FetchPastTopFaults := fun _ hs h => step_of_fetch_error hs (fetch_past h)

/-- Settles O31: `exec_hlt` gives the state, whose status allows no step. -/
theorem hltRule : Obligations.HltRule := by
  refine ⟨rfl, fun s => ⟨_, exec_hlt s, rfl, fun hpc => ?_, fun r _ => rfl, rfl, rfl, fun a => rfl, fun u h => ?_⟩,
    fun s hat => step_at_bare hat lookup_hlt⟩
  · exact advance_pc_toNat (s := s.halt) hpc _
  · cases running_of_step h

end Sys2Proof.Machine
end

section
/-! PROOF. What the instruction rules share: the parts of a rule that the opcode's row of R74 decides (encoding, operand
check, operand fetch), the PC advance of R106 as a number, and the frame of an instruction that writes one register. -/

namespace Sys2Proof.Machine

open Sys2Proof Sys2Proof.Machine.Claim

section Rules

variable {s t : State} {ir : Byte}

/-- R72, R103, R105: a row with one operand byte, which names a register, has the shape of a format R rule. -/
theorem shapeR_of_lookup {mk : Byte → Instr} (hl : lookupOpcode ir = some (.one mk))
    (hr : ∀ a, (mk a).regOperands = [a]) : shapeR ir mk :=
  ⟨encode_one hl, fun a _ ha => exec_badOperand (by simp [hr, ha]),
    fun _ hat => ⟨step_at_one_fault hat hl, step_at_one hat hl⟩⟩

/-- R103: the step at an opcode with two operand bytes, by where they stand. -/
theorem step_at_two_cases {mk : Byte → Byte → Instr} (hat : atOpcode s ir) (hl : lookupOpcode ir = some (.two mk)) :
    (s.pc.toNat = 255 → step s = .next (faultedBy (.memoryFault 256) s)) ∧
    (s.pc.toNat = 254 → step s = .next (faultedBy (.memoryFault 256) s)) ∧
    (s.pc.toNat ≤ 253 → step s = exec (mk (operandAt s 1) (operandAt s 2)) s) := by
  have fault (hn : 255 < s.pc.toNat + 2) : step s = .next (faultedBy (.memoryFault 256) s) :=
    step_at_operandFault hat hl hn
  exact ⟨fun _ => fault (by omega), fun _ => fault (by omega), step_at_two hat hl⟩

/-- R106: the advance adds the instruction's length to PC, which no earlier statement of the handler has changed. -/
theorem pcPlus_advance (hpc : t.pc = s.pc) : pcPlus (1 + operandCount ir) s (t.advance ir) := by
  intro h
  rw [advance_pc_toNat (hpc ▸ h), hpc, Nat.add_assoc]

/-- One register written, then the advance: R8's primitives touch nothing else. -/
theorem onlyRegs_setReg_advance (r : Reg) (v : Byte) : onlyRegs [r] s ((s.setReg r v).advance ir) :=
  ⟨fun _ hq => reg_setReg_ne (List.ne_of_not_mem_cons hq), rfl, rfl, rfl, fun _ => rfl⟩

end Rules

end Sys2Proof.Machine
end

section
/-! PROOF. The obligations of 41_load_print.md, each from the lemmas above. -/

namespace Sys2Proof.Machine

open Sys2Proof Sys2Proof.Machine.Claim

/-- Settles O32: `exec_ldi` gives the state; the immediate is no register operand, so `opA` alone is checked. -/
theorem ldiRule : Obligations.LdiRule := by
  refine ⟨encode_two lookup_ldi, fun a v r s ha => ?_, fun a v s ha => ?_, fun s hat => step_at_two_cases hat lookup_ldi⟩
  · exact ⟨_, exec_ldi s ha v, reg_setReg_same s r v, pcPlus_advance (setReg_pc s r v), onlyRegs_setReg_advance r v⟩
  · exact exec_badOperand (i := .ldi a v) (by simp [Instr.regOperands, ha])

/-- Settles O33: `exec_prn` gives the state, in which OUT and PC alone differ. -/
theorem prnRule : Obligations.PrnRule := by
  refine ⟨shapeR_of_lookup lookup_prn fun _ => rfl, fun a r s ha => ⟨_, exec_prn s ha, rfl, ?_, ?_, rfl, rfl, ?_⟩⟩
  · exact pcPlus_advance (emit_pc s (.print (s.reg r)))
  · exact fun _ _ => rfl
  · exact fun _ => rfl

end Sys2Proof.Machine
end

section
/-! PROOF. What the ALU rules share (R130, R142): the whole of a format RR rule from its row of R74 and its effect on
named registers, the effect of writing one register, and what the ALU's functions and CMP's flags are as numbers and bits. -/

namespace Sys2Proof.Machine

open Sys2Proof Sys2Proof.Machine.Claim

/-! ### Format RR rules -/

section Rules

variable {ir : Byte} {mk : Byte → Byte → Instr} {effect : Reg → Reg → State → State → Prop}

/-- R72, R103, R105: of a row with two register operand bytes, only the effect on named registers is left to show. -/
theorem ruleRR_of_lookup (hl : lookupOpcode ir = some (.two mk)) (hr : ∀ a b, (mk a b).regOperands = [a, b])
    (he : ∀ a b ra rb s, names a ra → names b rb → ∃ t, exec (mk a b) s = .next t ∧ effect ra rb s t) :
    ruleRR ir mk effect :=
  ⟨encode_two hl, he, fun a b _ ha => exec_badOperand (by simp [hr, ha]),
    fun a b _ ha hb => exec_badOperand (by simp [hr, Nat.not_lt.mpr ha, hb]), fun _ hat => step_at_two_cases hat hl⟩

/-- R130: a two-operand operation that writes its first register has the effect that this write and the advance have. -/
theorem ruleRR_of_aluBinary {f : Byte → Byte → Byte} (hl : lookupOpcode ir = some (.two mk))
    (hr : ∀ a b, (mk a b).regOperands = [a, b]) (hx : ∀ a b s, exec (mk a b) s = aluBinary ir f a b s)
    (he : ∀ ra rb s, effect ra rb s ((s.setReg ra (f (s.reg ra) (s.reg rb))).advance ir)) : ruleRR ir mk effect :=
  ruleRR_of_lookup hl hr fun a b ra rb s ha hb => ⟨_, (hx a b s).trans (aluBinary_ok s ir f ha hb), he ra rb s⟩

end Rules

/-! ### One register written, PC + 3 -/

section Effects

variable {s t : State} {a b : Reg} {v ir : Byte}

theorem reg_setReg_advance (s : State) (r : Reg) (v ir : Byte) : ((s.setReg r v).advance ir).reg r = v :=
  reg_setReg_same s r v

theorem pcPlus_three_advance (hn : operandCount ir = 2) (hpc : t.pc = s.pc) : pcPlus 3 s (t.advance ir) := by
  have h := pcPlus_advance (ir := ir) hpc
  rwa [hn] at h

theorem aluEffect_setReg_advance {f : Nat → Nat → Nat} (hn : operandCount ir = 2)
    (hv : v.toNat = f (s.reg a).toNat (s.reg b).toNat) : aluEffect f a b s ((s.setReg a v).advance ir) :=
  ⟨by rw [reg_setReg_advance, hv], pcPlus_three_advance hn (setReg_pc s a v), onlyRegs_setReg_advance a v⟩

theorem bitwiseEffect_setReg_advance {f : Bool → Bool → Bool} (hn : operandCount ir = 2)
    (hv : ∀ k, v.getLsbD k = f ((s.reg a).getLsbD k) ((s.reg b).getLsbD k)) :
    bitwiseEffect f a b s ((s.setReg a v).advance ir) :=
  ⟨fun k _ => by rw [reg_setReg_advance, hv], pcPlus_three_advance hn (setReg_pc s a v),
    onlyRegs_setReg_advance a v⟩

end Effects

/-! ### The ALU's functions and CMP's flags -/

section Functions

variable {a b : Byte}

/-- R137: NOT is its own inverse. -/
theorem aluNot_aluNot (a : Byte) : aluNot (aluNot a) = a := by
  rw [aluNot, aluNot, BitVec.xor_assoc, BitVec.xor_self, BitVec.xor_zero]

/-- R138, R139: the amount is not reduced mod 8, so from 8 up every bit is shifted out. -/
theorem aluShl_eq_zero (h : 8 ≤ b.toNat) : aluShl a b = 0 := BitVec.shiftLeft_eq_zero h

theorem aluShr_eq_zero (h : 8 ≤ b.toNat) : aluShr a b = 0 := BitVec.ushiftRight_eq_zero h

/-- R133: the remainder by a divisor that is not 0 is below it. -/
theorem aluMod_lt (hb : b ≠ 0) : (aluMod a b).toNat < b.toNat := by
  rw [aluMod, BitVec.toNat_umod]
  exact Nat.mod_lt _ (Nat.pos_of_ne_zero fun h => hb (BitVec.eq_of_toNat_eq h))

/-- R140: the sign of the difference is the unsigned order. -/
theorem compareFlags_of_eq (h : a.toNat = b.toNat) : compareFlags a b = ⟨true, false, false⟩ := by
  simp [compareFlags, h]

theorem compareFlags_of_lt (h : a.toNat < b.toNat) : compareFlags a b = ⟨false, true, false⟩ := by
  simp only [compareFlags, Flags.mk.injEq, decide_eq_true_eq, decide_eq_false_iff_not]
  omega

theorem compareFlags_of_gt (h : b.toNat < a.toNat) : compareFlags a b = ⟨false, false, true⟩ := by
  simp only [compareFlags, Flags.mk.injEq, decide_eq_true_eq, decide_eq_false_iff_not]
  omega

end Functions

end Sys2Proof.Machine
end

section
/-! PROOF. The obligations of 42_alu.md, each from the lemmas above. -/

namespace Sys2Proof.Machine

open Sys2Proof Sys2Proof.Machine.Claim

/-- Settles O34: sum and product of bytes are those of their numbers mod 256. -/
theorem addMulRules : Obligations.AddMulRules :=
  ⟨ruleRR_of_aluBinary (f := aluAdd) lookup_add (fun _ _ => rfl) (fun _ _ _ => rfl) fun _ _ _ =>
      aluEffect_setReg_advance rfl (BitVec.toNat_add _ _),
    ruleRR_of_aluBinary (f := aluMul) lookup_mul (fun _ _ => rfl) (fun _ _ _ => rfl) fun _ _ _ =>
      aluEffect_setReg_advance rfl (BitVec.toNat_mul _ _)⟩

/-- Settles O35: a zero divisor and any other, each by its own equation of `exec`. -/
theorem modRule : Obligations.ModRule := by
  refine ruleRR_of_lookup lookup_mod (fun _ _ => rfl) fun a b ra rb s ha hb => ?_
  by_cases hz : s.reg rb = 0
  · refine ⟨_, exec_mod_zero s ha hb hz, fun _ => ?_, fun hnz => absurd hz hnz⟩
    exact ⟨rfl, rfl, pcPlus_three_advance rfl rfl, fun _ _ => rfl, rfl, fun _ => rfl⟩
  · refine ⟨_, exec_mod s ha hb hz, fun hz' => absurd hz' hz, fun _ => ?_⟩
    refine ⟨aluEffect_setReg_advance rfl BitVec.toNat_umod, ?_⟩
    rw [reg_setReg_advance]
    exact aluMod_lt hz

/-- Settles O36: each bit of the result is the operation on the two bits. -/
theorem andOrXorRules : Obligations.AndOrXorRules :=
  ⟨ruleRR_of_aluBinary (f := aluAnd) lookup_and (fun _ _ => rfl) (fun _ _ _ => rfl) fun _ _ _ =>
      bitwiseEffect_setReg_advance rfl fun _ => BitVec.getLsbD_and,
    ruleRR_of_aluBinary (f := aluOr) lookup_or (fun _ _ => rfl) (fun _ _ _ => rfl) fun _ _ _ =>
      bitwiseEffect_setReg_advance rfl fun _ => BitVec.getLsbD_or,
    ruleRR_of_aluBinary (f := aluXor) lookup_xor (fun _ _ => rfl) (fun _ _ _ => rfl) fun _ _ _ =>
      bitwiseEffect_setReg_advance rfl fun _ => BitVec.getLsbD_xor⟩

/-- Settles O37: `exec_not` gives the state, and a second NOT undoes the complement. -/
theorem notRule : Obligations.NotRule := by
  refine ⟨shapeR_of_lookup lookup_not fun _ => rfl, fun a r s ha => ⟨_, exec_not s ha, ?_⟩⟩
  have hreg := reg_setReg_advance s r (aluNot (s.reg r)) Opcode.not
  refine ⟨by rw [hreg, aluNot_toNat], hreg, pcPlus_advance (setReg_pc s r _), onlyRegs_setReg_advance r _, ?_⟩
  intro a' u ha' hu
  rw [exec_not _ ha'] at hu
  cases hu
  rw [reg_setReg_advance, hreg, aluNot_aluNot]

/-- Settles O38: the shifts as numbers, and that an amount of 8 or more leaves nothing. -/
theorem shiftRules : Obligations.ShiftRules :=
  ⟨ruleRR_of_aluBinary (f := aluShl) lookup_shl (fun _ _ => rfl) (fun _ _ _ => rfl) fun _ _ _ =>
      ⟨aluEffect_setReg_advance rfl (aluShl_toNat _ _), fun h =>
        (reg_setReg_advance _ _ _ _).trans (aluShl_eq_zero h)⟩,
    ruleRR_of_aluBinary (f := aluShr) lookup_shr (fun _ _ => rfl) (fun _ _ _ => rfl) fun _ _ _ =>
      ⟨aluEffect_setReg_advance rfl (aluShr_toNat _ _), fun h =>
        (reg_setReg_advance _ _ _ _).trans (aluShr_eq_zero h)⟩⟩

/-- Settles O39: `exec_cmp` gives the state, in which the flags and PC alone differ. -/
theorem cmpRule : Obligations.CmpRule :=
  ruleRR_of_lookup lookup_cmp (fun _ _ => rfl) fun _ _ _ _ s ha hb =>
    ⟨_, exec_cmp s ha hb, compareFlags_of_eq, compareFlags_of_lt, compareFlags_of_gt, pcPlus_three_advance rfl rfl,
      fun _ _ => rfl, rfl, rfl, fun _ => rfl⟩

end Sys2Proof.Machine
end

section
/-! PROOF. The stack's two operations (R160 to R163): the registers and memory after each, and that the pop after a push of
the same register undoes it. -/

namespace Sys2Proof.Machine

open Sys2Proof Sys2Proof.Machine.Claim

section StackOps

variable {s : State} {r q : Reg}

/-! ### The registers -/

theorem pushed_reg_sp (s : State) (r : Reg) : (pushed s r).reg spReg = s.reg spReg - 1 := reg_setReg_same s spReg _

theorem pushed_reg_ne (h : q ≠ spReg) : (pushed s r).reg q = s.reg q := reg_setReg_ne h

theorem popSp_reg_sp (s : State) : s.popSp.reg spReg = s.reg spReg + 1 := reg_setReg_same s spReg _

theorem popSp_reg_ne (h : q ≠ spReg) : s.popSp.reg q = s.reg q := reg_setReg_ne h

/-- A register loaded with the value it holds: nothing changes. -/
theorem setReg_reg (s : State) (r : Reg) : s.setReg r (s.reg r) = s := by
  rw [State.setReg, State.reg, Fin.getElem_fin, Vector.set_getElem_self]

/-! ### The cell pushed to -/

/-- R161: the byte at the new SP is the register's value after the decrement, for R7 too. -/
theorem read_pushed (s : State) (r : Reg) : (pushed s r).mem.read (pushAddr s) = (pushed s r).reg r := by
  rw [pushed_mem, sp_sub_one_toNat, Memory.read_write_same, pushed_reg]

theorem keepsMemBut_pushed (s : State) (r : Reg) : keepsMemBut (pushAddr s) s (pushed s r) := fun a ha => by
  rw [pushed_mem, sp_sub_one_toNat, Memory.read_write_ne ha]

/-- R163: the byte on top of the stack is the one that the register holds, so the load of a pop after the push changes
nothing. -/
theorem setReg_top_pushed (s : State) (r : Reg) :
    (pushed s r).setReg r ((pushed s r).mem.read ((pushed s r).reg spReg).toNat) = pushed s r := by
  rw [pushed_reg_sp, sp_sub_one_toNat, read_pushed, setReg_reg]

/-- R163: the increment of a pop undoes the decrement of the push, also where SP wraps. -/
theorem popSp_pushed_reg (s : State) (r q : Reg) : (pushed s r).popSp.reg q = s.reg q := by
  by_cases h : q = spReg
  · rw [h, popSp_reg_sp, pushed_reg_sp, BitVec.sub_add_cancel]
  · rw [popSp_reg_ne h, pushed_reg_ne h]

end StackOps

end Sys2Proof.Machine
end

section
/-! PROOF. The obligations of 43_stack.md on PUSH and POP, each from the lemmas above. -/

namespace Sys2Proof.Machine

open Sys2Proof Sys2Proof.Machine.Claim

/-- Settles O40: `exec_push` gives the state, `pushed` and the advance. -/
theorem pushRule : Obligations.PushRule := by
  refine ⟨shapeR_of_lookup lookup_push fun _ => rfl, fun a r s ha => ⟨_, exec_push s ha, ?_⟩⟩
  have hsp : ((pushed s r).reg 7).toNat = pushAddr s := by rw [pushed_reg_sp, sp_sub_one_toNat]
  exact ⟨hsp, read_pushed s r, keepsMemBut_pushed s r, fun _ hq => pushed_reg_ne (r := r) (List.ne_of_not_mem_cons hq),
    rfl, rfl, rfl, pcPlus_advance (pushed_pc s r)⟩

/-- Settles O41: `exec_pop` gives the state; what SP's increment starts from is the loaded byte when the register is SP. -/
theorem popRule : Obligations.PopRule := by
  refine ⟨shapeR_of_lookup lookup_pop fun _ => rfl, fun a r s ha => ⟨_, exec_pop s ha, fun hr => ?_, ?_, ?_, ?_⟩⟩
  · rw [advance_reg, popSp_reg_ne hr, reg_setReg_same]
  · rw [advance_reg, popSp_reg_sp, add_one_toNat, reg_setReg, if_congr eq_comm rfl rfl]
  · exact pcPlus_advance (popSp_pc _)
  · refine ⟨fun q hq => ?_, rfl, rfl, rfl, fun _ => rfl⟩
    obtain ⟨hqr, hqsp⟩ : q ≠ r ∧ q ≠ spReg := by simpa using hq
    rw [advance_reg, popSp_reg_ne hqsp, reg_setReg_ne hqr]

/-- Settles O46: the load puts back the value the register holds, so the two SP updates are all that is left of the
registers' changes. -/
theorem pushThenPopRestores : Obligations.PushThenPopRestores := by
  intro a r s ha
  refine ⟨_, _, exec_push s ha, exec_pop _ ha, fun q => ?_, keepsMemBut_pushed s r, rfl, rfl, rfl⟩
  have hload := setReg_top_pushed s r
  exact (congrArg (State.reg ·.popSp q) hload).trans (popSp_pushed_reg s r q)

end Sys2Proof.Machine
end

section
/-! PROOF. The control transfers (R170 to R175): the registers and memory that a CALL leaves before its jump, and a
conditional jump taken and not taken, with its frame. -/

namespace Sys2Proof.Machine

open Sys2Proof Sys2Proof.Machine.Claim

/-! ### The state of a CALL before the jump (R171) -/

section Called

variable (s : State)

theorem called_reg_sp : (called s).reg spReg = s.reg spReg - 1 := by
  rw [called_reg, if_pos rfl]

theorem called_reg_link : (called s).reg linkReg = BitVec.ofNat 8 (s.pc.toNat + 2) := by
  rw [called_reg, if_neg (by decide), if_pos rfl]

theorem called_sp_toNat : ((called s).reg spReg).toNat = pushAddr s := by
  rw [called_reg_sp, sp_sub_one_toNat]

/-- The byte on top of the stack is the link register's. -/
theorem read_called : (called s).mem.read (pushAddr s) = (called s).reg linkReg := by
  rw [called_mem, sp_sub_one_toNat, Memory.read_write_same, called_reg_link]

theorem keepsMemBut_called : keepsMemBut (pushAddr s) s (called s) := fun a ha => by
  rw [called_mem, sp_sub_one_toNat, Memory.read_write_ne ha]

variable {s}

theorem called_reg_ne {q : Reg} (hl : q ≠ linkReg) (hsp : q ≠ spReg) : (called s).reg q = s.reg q := by
  rw [called_reg, if_neg hsp, if_neg hl]

/-- D12: the link register holds a return address that is a memory address as it is. -/
theorem called_link_toNat (h : s.pc.toNat + 2 ≤ 255) : ((called s).reg linkReg).toNat = s.pc.toNat + 2 := by
  rw [called_reg_link, BitVec.toNat_ofNat]
  omega

end Called

/-! ### Conditional jumps (R174, R175) -/

section JumpIf

variable {s : State} {c : Bool}

theorem jumpIf_pc_taken (hc : c = true) (ir : Byte) (r : Reg) : (jumpIf c ir r s).pc.toNat = (s.reg r).toNat := by
  rw [hc, jumpIf_true, jump_pc, zext9_toNat]

theorem pcPlus_jumpIf_notTaken (hc : c = false) (ir : Byte) (r : Reg) :
    pcPlus (1 + operandCount ir) s (jumpIf c ir r s) := by
  rw [hc, jumpIf_false]
  exact pcPlus_advance rfl

theorem onlyRegs_jumpIf (ir : Byte) (r : Reg) : onlyRegs [] s (jumpIf c ir r s) :=
  ⟨fun q _ => jumpIf_reg c ir r q s, jumpIf_flags c ir r s, jumpIf_status c ir r s, jumpIf_out c ir r s,
    fun _ => by rw [jumpIf_mem]⟩

end JumpIf

end Sys2Proof.Machine
end

section
/-! PROOF. The obligations of 44_control.md, each from the lemmas above. -/

namespace Sys2Proof.Machine

open Sys2Proof Sys2Proof.Machine.Claim

/-- Settles O42: `exec_call` gives the state, `called` and a jump, which changes PC alone. -/
theorem callRule : Obligations.CallRule := by
  refine ⟨shapeR_of_lookup lookup_call fun _ => rfl, fun a r s ha hpc => ?_, fun _ _ s ha h => exec_call_fault s ha h⟩
  refine ⟨_, exec_call s ha (Nat.lt_succ_of_le hpc), called_link_toNat hpc, called_sp_toNat s, read_called s,
    zext9_toNat _, keepsMemBut_called s, fun q hq => ?_, rfl, rfl, rfl⟩
  obtain ⟨hl, hsp⟩ : q ≠ linkReg ∧ q ≠ spReg := by simpa using hq
  exact called_reg_ne hl hsp

/-- Settles O45: both are `jumpIf`, on E and on its negation. -/
theorem jeqJneRules : Obligations.JeqJneRules := by
  refine ⟨⟨shapeR_of_lookup lookup_jeq fun _ => rfl, fun a r s ha => ⟨_, exec_jeq s ha, ?_⟩⟩,
    ⟨shapeR_of_lookup lookup_jne fun _ => rfl, fun a r s ha => ⟨_, exec_jne s ha, ?_⟩⟩⟩
  · exact ⟨fun he => jumpIf_pc_taken he _ r, fun he => pcPlus_jumpIf_notTaken he _ r, onlyRegs_jumpIf _ r⟩
  · exact ⟨fun he => jumpIf_pc_taken (congrArg not he) _ r, fun he => pcPlus_jumpIf_notTaken (congrArg not he) _ r,
      onlyRegs_jumpIf _ r⟩

/-- Settles O47: what RET reads on top of the stack is the return address that CALL pushed, and RET's increment of SP
undoes CALL's decrement. -/
theorem callThenReturnResumes : Obligations.CallThenReturnResumes := by
  intro a r s t u ha hpc hcall hsp htop
  rw [exec_call s ha (by omega)] at hcall
  cases hcall
  replace hsp : u.reg spReg = (called s).reg spReg := hsp
  replace htop : u.mem.read ((called s).reg spReg).toNat = (called s).reg linkReg := by
    rw [← read_called, ← called_sp_toNat]
    exact htop
  refine ⟨_, exec_ret u, ?_, ?_⟩
  · rw [popSp_pc, jump_pc, zext9_toNat, hsp, htop, called_link_toNat (by omega)]
  · rw [popSp_reg_sp, jump_reg, hsp, called_reg_sp, BitVec.sub_add_cancel]

/-- Settles O43: `exec_ret` gives the state, in which PC and SP alone differ. -/
theorem retRule : Obligations.RetRule := by
  refine ⟨encode_bare lookup_ret, fun s => ⟨_, exec_ret s, ?_⟩, fun s hat => step_at_bare hat lookup_ret⟩
  refine ⟨zext9_toNat _, ?_, fun q hq => ?_, rfl, rfl, rfl, fun _ => rfl⟩
  · rw [popSp_reg_sp, jump_reg, add_one_toNat]
  · rw [popSp_reg_ne (List.ne_of_not_mem_cons hq), jump_reg]

/-- Settles O44: `exec_jmp` gives the state, in which PC alone differs. -/
theorem jmpRule : Obligations.JmpRule :=
  ⟨shapeR_of_lookup lookup_jmp fun _ => rfl, fun _ _ s ha =>
    ⟨_, exec_jmp s ha, zext9_toNat _, fun _ _ => rfl, rfl, rfl, rfl, fun _ => rfl⟩⟩

end Sys2Proof.Machine
end

section
/-! PROOF. The runtime faults (R190, R195, R196): the rows of the fault table, that a step faults by one of them only, and
what the conditions of R196's order say of the operand bytes at PC. -/

namespace Sys2Proof.Machine

open Sys2Proof Sys2Proof.Machine.Claim

/-! ### Register operand bytes by opcode number (R72) -/

section Regops

variable {ir a b v : Nat}

theorem regops_cases (ir a b : Nat) : regops ir a b = [] ∨ regops ir a b = [a] ∨ regops ir a b = [a, b] := by
  unfold regops
  split_ifs <;> simp only [true_or, or_true]

theorem mem_regops (h : v ∈ regops ir a b) : v = a ∨ v = b := by
  obtain e | e | e := regops_cases ir a b <;> rw [e] at h
  · cases h
  · exact .inl (List.mem_singleton.mp h)
  · exact List.mem_pair.mp h

/-- Only a defined opcode declares register operands. -/
theorem defined_of_mem_regops (h : v ∈ regops ir a b) : ir ∈ definedOpcodes := by
  unfold regops at h
  split_ifs at h with hR hRR hI
  · exact (by decide : formatR ⊆ definedOpcodes) hR
  · exact (by decide : formatRR ⊆ definedOpcodes) hRR
  · exact hI ▸ by decide
  · cases h

/-- R105: `opA` is validated first. -/
theorem find_regops_first (h : ∃ v, (regops ir a b).head? = some v ∧ 7 < v) :
    (regops ir a b).find? (fun r => r > 7) = some a := by
  obtain e | e | e := regops_cases ir a b <;> rw [e] at h ⊢
  · exact absurd h (by simp)
  · exact List.find?_cons_of_pos (by simpa using h)
  · exact List.find?_cons_of_pos (by simpa using h)

/-- R105: `opB` is validated second. -/
theorem find_regops_second (ha : ¬∃ v, (regops ir a b).head? = some v ∧ 7 < v)
    (hb : ∃ v, (regops ir a b).tail.head? = some v ∧ 7 < v) : (regops ir a b).find? (fun r => r > 7) = some b := by
  obtain e | e | e := regops_cases ir a b <;> rw [e] at ha hb ⊢
  · exact absurd hb (by simp)
  · exact absurd hb (by simp)
  · rw [List.find?_cons_of_neg (by simpa using ha)]
    exact List.find?_cons_of_pos (by simpa using hb)

theorem regops_le_seven (ha : ¬∃ v, (regops ir a b).head? = some v ∧ 7 < v)
    (hb : ¬∃ v, (regops ir a b).tail.head? = some v ∧ 7 < v) (hv : v ∈ regops ir a b) : v ≤ 7 := by
  obtain e | e | e := regops_cases ir a b <;> rw [e] at ha hb hv
  · cases hv
  · obtain rfl := List.mem_singleton.mp hv
    simpa using ha
  · obtain rfl | rfl := List.mem_pair.mp hv
    · simpa using ha
    · simpa using hb

end Regops

/-! ### The rows of R190's table -/

/-- A condition of R190's table holds of `s`, and `f` is the fault that its row records. Several may hold at once. -/
inductive FaultCause (s : State) : RuntimeFault → Prop
  | opcodeFetch (h : 255 < s.pc.toNat) : FaultCause s (.memoryFault s.pc.toNat)
  | operandFetch {ir} (hat : atOpcode s ir) (hdef : ir.toNat ∈ definedOpcodes) (h : 255 < s.pc.toNat + ir.toNat / 64) :
      FaultCause s (.memoryFault 256)
  | registerIndex {ir} {b : Byte} (hat : atOpcode s ir)
      (hb : b.toNat ∈ regops ir.toNat (operandAt s 1).toNat (operandAt s 2).toNat) (h : 7 < b.toNat) :
      FaultCause s (.registerIndexFault b)
  | returnAddress (hat : atOpcode s 0x50) (h : 255 < s.pc.toNat + 2) : FaultCause s (.memoryFault (s.pc.toNat + 2))

section Causes

variable {i : Instr} {s t : State} {ir b : Byte} {f : RuntimeFault}

/-- An instruction that a running engine executes faults by a register operand byte or by CALL's return address. -/
theorem Effect.faultCause (he : Effect i s t) (hs : s.status = .running) (hc : CodeAt s i)
    (ht : t.status = .faulted f) : FaultCause s f := by
  cases he with
  | badOperand hf hb =>
    cases ht
    refine .registerIndex (hc.atOpcode hs) ?_ hb
    rw [hc.regops_eq]
    exact List.mem_map_of_mem (List.mem_of_find?_eq_some hf)
  | returnAddress _ h =>
    cases ht
    exact .returnAddress (hc.atOpcode hs) h
  | hlt | modHalt => cases ht
  | jeq | jne => rw [jumpIf_status, hs] at ht; cases ht
  | _ => cases hs.symm.trans ht

/-- R190: a step faults by a row of the table, with what the row records. -/
theorem step_faultCause (h : step s = .next t) (ht : t.status = .faulted f) : FaultCause s f := by
  have hs := running_of_step h
  cases step_summary h with
  | past hpc h' =>
    subst h'
    cases ht
    exact .opcodeFetch hpc
  | unknown _ _ h' =>
    subst h'
    cases hs.symm.trans ht
  | operandFault hpc hl hn h' =>
    subst h'
    cases ht
    rw [arity_of_lookup hl, operandCount_eq] at hn
    exact .operandFetch ⟨hs, Nat.le_of_lt_succ hpc, rfl⟩ (defined_of_lookup hl) hn
  | instr hc he => exact he.faultCause hs hc ht

/-! ### R196's order -/

/-- Past the stages of operand fetch, the operand bytes that a defined opcode declares are in range. -/
theorem operands_fit {pc ir : Nat} (hpc : ¬255 < pc) (h₁ : ¬(ir ∈ definedOpcodes ∧ 1 ≤ ir / 64 ∧ 255 < pc + 1))
    (h₂ : ¬(ir ∈ definedOpcodes ∧ 2 ≤ ir / 64 ∧ 255 < pc + 2)) (hdef : ir ∈ definedOpcodes) : pc + ir / 64 ≤ 255 := by
  have := operandCount_of_defined ir hdef
  simp only [hdef, true_and] at h₁ h₂
  omega

/-- Operand fetch at a defined opcode, with the arity read from the opcode byte. -/
theorem step_operandFault (hat : atOpcode s ir) (hdef : ir.toNat ∈ definedOpcodes)
    (hn : 255 < s.pc.toNat + ir.toNat / 64) : step s = .next (raise (.memoryFault 256) s) := by
  obtain ⟨f, hl⟩ := lookup_of_defined hdef
  exact step_at_operandFault hat hl (by rwa [arity_of_lookup hl, operandCount_eq])

/-- R105: with the operand bytes fetched, the first register operand byte above 7 is the fault. -/
theorem step_badOperand (hat : atOpcode s ir)
    (hfit : ir.toNat ∈ definedOpcodes → s.pc.toNat + ir.toNat / 64 ≤ 255)
    (hf : (regops ir.toNat (operandAt s 1).toNat (operandAt s 2).toNat).find? (fun r => r > 7) = some b.toNat) :
    step s = .next (raise (.registerIndexFault b) s) := by
  have hdef := defined_of_mem_regops (List.mem_of_find?_eq_some hf)
  obtain ⟨form, hl⟩ := lookup_of_defined hdef
  obtain ⟨i, hc⟩ := exists_codeAt hat hl (by rw [arity_of_lookup hl, operandCount_eq]; exact hfit hdef)
  obtain rfl : i.opcode = ir := (hc.atOpcode hat.1).2.2.symm.trans hat.2.2
  rw [hc.find_regops] at hf
  obtain ⟨c, hfind, hcb⟩ := Option.map_eq_some_iff.mp hf
  obtain rfl := BitVec.eq_of_toNat_eq hcb
  rw [step_of_codeAt hat.1 hc]
  exact exec_badOperand hfind

/-- R171: a CALL whose operand names a register faults on a return address above 255. -/
theorem step_returnAddress (hat : atOpcode s 0x50) (hpc : s.pc.toNat + 1 ≤ 255) (ha : (operandAt s 1).toNat ≤ 7)
    (h : 255 < s.pc.toNat + 2) : step s = .next (raise (.memoryFault (s.pc.toNat + 2)) s) := by
  rw [step_at_one hat lookup_call (Nat.le_of_succ_le_succ hpc)]
  exact exec_call_fault (ra := ⟨_, Nat.lt_succ_of_le ha⟩) s rfl h

/-- Where every stage passes, no row of the table applies. -/
theorem no_faultCause (hpc : ¬255 < s.pc.toNat)
    (hfit : (s.mem.read s.pc.toNat).toNat ∈ definedOpcodes → s.pc.toNat + (s.mem.read s.pc.toNat).toNat / 64 ≤ 255)
    (hops : ∀ {v}, v ∈ regops (s.mem.read s.pc.toNat).toNat (operandAt s 1).toNat (operandAt s 2).toNat → v ≤ 7)
    (hcall : ¬((s.mem.read s.pc.toNat).toNat = 0x50 ∧ 255 < s.pc.toNat + 2)) : ¬FaultCause s f := by
  intro hcause
  cases hcause with
  | opcodeFetch h => exact hpc h
  | operandFetch hat hdef h =>
    obtain ⟨-, -, rfl⟩ := hat
    exact absurd (hfit hdef) (Nat.not_le.mpr h)
  | registerIndex hat hb h =>
    obtain ⟨-, -, rfl⟩ := hat
    exact absurd (hops hb) (Nat.not_le.mpr h)
  | returnAddress hat h => exact hcall ⟨congrArg BitVec.toNat hat.2.2, h⟩

end Causes

end Sys2Proof.Machine
end

section
/-! PROOF. The obligations of 60_exceptions.md, each from the lemmas above. -/

namespace Sys2Proof.Machine

open Sys2Proof Sys2Proof.Machine.Claim

/-- Settles O13: such a step is fault entry, and a faulted engine has no step. -/
theorem faultEntryIsPreciseAndTerminal : Obligations.FaultEntryIsPreciseAndTerminal := by
  intro s t f h ht
  have hstopped : t.status ≠ .running := fun hs => nomatch hs.symm.trans ht
  exact ⟨step_eq_raise h ht, fun u hu => hstopped (running_of_step hu), freeRun_of_not_running hstopped⟩

/-- Settles O15: each stage faults where the stages before it pass, and where all pass no row of R190 applies. -/
theorem faultPriority : Obligations.FaultPriority := by
  intro s hs
  dsimp only
  split_ifs with hpc h₁ h₂ ha hb hcall
  · exact step_of_fetch_error hs (fetch_past hpc)
  all_goals have hat : atOpcode s (s.mem.read s.pc.toNat) := ⟨hs, Nat.not_lt.mp hpc, rfl⟩
  · obtain ⟨hdef, hn, h⟩ := h₁
    rw [show s.pc.toNat + 1 = 256 by omega]
    exact step_operandFault hat hdef (by omega)
  · obtain ⟨hdef, hn, h⟩ := h₂
    have hpc₁ : ¬255 < s.pc.toNat + 1 := fun h => h₁ ⟨hdef, by omega, h⟩
    rw [show s.pc.toNat + 2 = 256 by omega]
    exact step_operandFault hat hdef (by omega)
  all_goals have hfit := operands_fit hpc h₁ h₂
  · exact step_badOperand hat hfit (find_regops_first ha)
  · exact step_badOperand hat hfit (find_regops_second ha hb)
  · obtain ⟨hir, h⟩ := hcall
    have hr : (operandAt s 1).toNat ≤ 7 := regops_le_seven ha hb (by rw [hir]; exact List.mem_singleton.mpr rfl)
    rw [hir] at hfit
    exact step_returnAddress ⟨hs, hat.2.1, BitVec.eq_of_toNat_eq hir⟩ (hfit (by decide)) hr h
  · obtain ⟨t, ht⟩ := step_exists hs
    refine ⟨t, ht, ?_⟩
    cases hst : t.status with
    | running => exact .inl rfl
    | halted => exact .inr rfl
    | faulted f => exact absurd (step_faultCause ht hst) (no_faultCause hpc hfit (regops_le_seven ha hb) hcall)

/-- Where a row of R190 applies the step faults, though by R196 perhaps with an earlier row's fault. -/
theorem FaultCause.step_faults {s : State} {f : RuntimeFault} (h : FaultCause s f) (hs : s.status = .running) :
    ∃ g, step s = .next (faultedBy g s) := by
  have hstep := faultPriority s hs
  dsimp only at hstep
  split_ifs at hstep with hpc h₁ h₂ ha hb hcall
  case neg => exact absurd h (no_faultCause hpc (operands_fit hpc h₁ h₂) (regops_le_seven ha hb) hcall)
  all_goals exact ⟨_, hstep⟩

/-- Settles O14: the rows of `FaultCause` are the table's, and a step faults exactly where one applies. -/
theorem faultListIsComplete : Obligations.FaultListIsComplete := by
  refine ⟨fun _ => rfl, fun _ => rfl, rfl, fun s t f hpc h ht => ?_, fun s hs h => ?_⟩
  · cases step_faultCause h ht with
    | opcodeFetch h => exact .inl ⟨_, rfl, rfl, h, hpc, .inl ⟨h, rfl⟩⟩
    | @operandFetch ir hat hdef h =>
      have hle := operandCount_of_defined _ hdef
      have hpc := hat.2.1
      refine .inl ⟨256, rfl, rfl, le_rfl, by decide, .inr (.inl ⟨ir, hat, hdef, ?_⟩)⟩
      omega
    | registerIndex hat hb h => exact .inr ⟨_, rfl, rfl, h, _, hat, hb⟩
    | returnAddress hat h =>
      have hpc := hat.2.1
      exact .inl ⟨_, rfl, rfl, h, by omega, .inr (.inr ⟨hat, h, rfl⟩)⟩
  · obtain h | ⟨ir, hat, hdef, h⟩ | ⟨ir, v, hat, hv, h⟩ | ⟨hat, h⟩ := h
    · exact (FaultCause.opcodeFetch h).step_faults hs
    · exact (FaultCause.operandFetch hat hdef h).step_faults hs
    · obtain rfl | rfl := mem_regops hv <;> exact (FaultCause.registerIndex hat hv h).step_faults hs
    · exact (FaultCause.returnAddress hat h).step_faults hs

end Sys2Proof.Machine
end

section
/-! PROOF. The start of a run (R220 to R222), and run control as iterated steps (R226, R227). -/

namespace Sys2Proof.Machine

open Sys2Proof Sys2Proof.Machine.Claim

section Boot

variable {image : List Byte} {s : State}

/-- A run starts exactly from an image that fits. -/
theorem boot_isSome_iff (image : List Byte) :
    (State.boot image).isSome = true ↔ 1 ≤ image.length ∧ image.length ≤ 256 := by
  rw [State.boot, State.launch, Option.isSome_ite, imageFits_iff]

theorem boot_pc (h : State.boot image = some s) : s.pc = 0 := by
  rw [(boot_eq_some h).1]
  rfl

theorem boot_status (h : State.boot image = some s) : s.status = .running := by
  rw [(boot_eq_some h).1]
  rfl

/-- The byte at the reset entry point is the image's first (R221). -/
theorem boot_read_pc {ir : Byte} (h : State.boot image = some s) (hir : image.head? = some ir) :
    s.mem.read s.pc.toNat = ir := by
  obtain ⟨-, hread⟩ := boot_eq_some h
  have hzero : image[0]? = some ir := List.head?_eq_getElem?.symm.trans hir
  rw [hread, boot_pc h]
  exact congrArg (Option.getD · blankByte) hzero

/-- The image's first byte is the opcode that the first step fetches. -/
theorem boot_atOpcode {ir : Byte} (h : State.boot image = some s) (hir : image.head? = some ir) : atOpcode s ir :=
  ⟨boot_status h, by rw [boot_pc h]; decide, boot_read_pc h hir⟩

end Boot

section Run

variable {s t : State}

/-! One step more at the front, of the host's run and of the free run. -/

theorem run_succ_of_step (h : step s = .next t) (n : Nat) : Host.Core.run core (n + 1) s = Host.Core.run core n t := by
  simp only [Host.Core.run, Host.Check.core_step, h]

theorem run_succ_of_not_running (hs : s.status ≠ .running) (n : Nat) :
    ∃ r, Host.Core.run core (n + 1) s = .fault r := by
  obtain ⟨r, hr⟩ := step_of_not_running hs
  exact ⟨r, by simp only [Host.Core.run, Host.Check.core_step, hr]⟩

theorem freeRun_succ_of_step (h : step s = .next t) (n : Nat) : freeRun (n + 1) s = freeRun n t := by
  rw [freeRun, h]

/-- A free run can be interrupted anywhere and resumed. -/
theorem freeRun_add (n k : Nat) (s : State) : freeRun (n + k) s = freeRun k (freeRun n s) := by
  induction n generalizing s with
  | zero => rw [Nat.zero_add, freeRun]
  | succ n ih =>
    by_cases hs : s.status = .running
    · obtain ⟨t, ht⟩ := step_exists hs
      rw [Nat.add_right_comm, freeRun_succ_of_step ht, freeRun_succ_of_step ht, ih]
    · simp only [freeRun_of_not_running hs]

/-- Steps that are all answered are the steps of the free run. -/
theorem freeRun_of_run {n : Nat} (h : Host.Core.run core n s = .next t) : freeRun n s = t := by
  induction n generalizing s with
  | zero => exact Host.Outcome.next.inj h
  | succ n ih =>
    by_cases hs : s.status = .running
    · obtain ⟨u, hu⟩ := step_exists hs
      rw [run_succ_of_step hu] at h
      rw [freeRun_succ_of_step hu, ih h]
    · obtain ⟨r, hr⟩ := run_succ_of_not_running hs n
      exact nomatch hr.symm.trans h

/-- A free run that is still running has made every one of its steps. -/
theorem run_of_freeRun_running {n : Nat} (h : (freeRun n s).status = .running) :
    Host.Core.run core n s = .next (freeRun n s) := by
  induction n generalizing s with
  | zero => rfl
  | succ n ih =>
    by_cases hs : s.status = .running
    · obtain ⟨t, ht⟩ := step_exists hs
      rw [freeRun_succ_of_step ht] at h ⊢
      rw [run_succ_of_step ht, ih h]
    · rw [freeRun_of_not_running hs] at h
      exact absurd h hs

end Run

end Sys2Proof.Machine
end

section
/-! PROOF. The obligations of 70_reset_and_hazards.md, each from the lemmas above. -/

namespace Sys2Proof.Machine

open Sys2Proof Sys2Proof.Machine.Claim

/-- Settles O27: the lengths by `boot_isSome_iff`, the contents by `boot_eq_some`. -/
theorem bootPlacesImage : Obligations.BootPlacesImage := by
  refine fun image => ⟨boot_isSome_iff image, fun s h => ?_⟩
  obtain ⟨hs, hread⟩ := boot_eq_some h
  refine ⟨fun k hk => ?_, fun a ha => ?_, hs⟩
  · rw [hread, List.getElem?_eq_getElem hk, Option.getD_some]
  · rw [hread, List.getElem?_eq_none ha]
    rfl

/-- Settles O30: both runs take the same steps while the engine runs, and where it has stopped the free run stays. -/
theorem freeRunIsRepeatedStep : Obligations.FreeRunIsRepeatedStep :=
  ⟨fun _ _ _ h => freeRun_of_run h,
    fun n k s hs => (freeRun_add n k s).trans (freeRun_of_not_running hs k),
    fun _ _ h => run_of_freeRun_running h⟩

/-- Settles O25: the reset values by evaluation, the first fetch by `boot_atOpcode`, and the effect of HLT. -/
theorem resetEntryIsZero : Obligations.ResetEntryIsZero := by
  refine ⟨rfl, rfl, fun _ => rfl, fun image s h => ?_⟩
  refine ⟨boot_pc h, boot_status h, fun _ => boot_read_pc h, fun hir => ?_⟩
  have hstep : step s = exec .hlt s := step_at_bare (boot_atOpcode h hir) lookup_hlt
  exact ⟨_, hstep.trans (exec_hlt s), rfl⟩

end Sys2Proof.Machine
end
